-- ==== Sys2Proof/Word.lean ====
section
/-! DEFINITION. The one data word of the block: a byte. Every other number of the spec is an unsigned natural (R8). -/

namespace Sys2Proof

/-- A byte is 8 bits wide (R6, D23); bit 0 is its least-significant bit (R8). -/
abbrev Byte := BitVec 8

end Sys2Proof
end

