-- ==== Sys2Proof/Syntax.lean ====
section
/-! DEFINITION. The operations of the block, one constructor per row of spec/opcode_table.json; the request that asks for
one (R62); the statuses (R64) and the outputs (R63) it answers with. -/

namespace Sys2Proof

/-- The four operations (R2, R67). Only `SETPAYLOAD` has operands (R62). -/
inductive Instr where
  /-- `RESET` (R170). -/
  | reset
  /-- `SETPAYLOAD(n, src)` (R80): `n` the source's `length`, `src` the source's `bytes`. -/
  | setpayload (n : Nat) (src : List Byte)
  /-- `GETBYTE` (R85). -/
  | getbyte
  /-- `GETSIGNAL` (R100). -/
  | getsignal
  deriving DecidableEq, Repr

/-- One step's request: the request vector `req[3:0]` = `{rst, set, get, tick}` and the operands presented with it (R62). -/
structure Request where
  req : BitVec 4
  n   : Nat
  src : List Byte
  deriving DecidableEq, Repr

/-- The status an operation returns (R64). `busy` is the source's BUSY/CONTINUE (C5); `error` is reserved and no
operation returns it (R69, R144). -/
inductive Status where
  | ok
  | finished
  | busy
  | error
  deriving DecidableEq, Repr

/-- The numbers of the statuses at the port (R64). -/
def Status.code : Status → BitVec 2
  | .ok       => 0b00#2
  | .finished => 0b01#2
  | .busy     => 0b10#2
  | .error    => 0b11#2

/-- The outputs driven in a step (R63). `data` and `bit` carry a meaning only with OK. -/
inductive Response where
  /-- No output: `RESET`, or a step that performs no operation of the block. -/
  | none
  /-- `SETPAYLOAD`: `status[1:0]`. -/
  | write (st : Status)
  /-- `GETBYTE`: `status[1:0]` and `data[7:0]`. -/
  | byte (st : Status) (data : Byte)
  /-- `GETSIGNAL`: `status[1:0]` and `bit`. -/
  | signal (st : Status) (bit : Bool)
  deriving DecidableEq, Repr

/-- The status among the outputs; `RESET` returns none (R145). -/
def Response.status : Response → Option Status
  | .none        => Option.none
  | .write st    => some st
  | .byte st _   => some st
  | .signal st _ => some st

/-- The agents that can take a step (R156). -/
inductive Agent where
  /-- The platform. -/
  | platform
  /-- The producer: the main context. -/
  | producer
  /-- The consumer: the interrupt context. -/
  | consumer
  deriving DecidableEq, Repr

/-- Who issues an operation (R155). Each request line belongs to one agent (R62), so a wrong issuer cannot be expressed. -/
def Instr.agent : Instr → Agent
  | .reset          => .platform
  | .setpayload _ _ => .producer
  | .getbyte        => .consumer
  | .getsignal      => .consumer

end Sys2Proof
end

