-- ==== Sys2Proof/Decode.lean ====
section
/-! DEFINITION. The request encodings (R62, R67, R68): the decoder, total on every request and refusing by name, and after
it the encoder, both over the one opcode map of R67. -/

namespace Sys2Proof

/-- What a request asks for. -/
inductive Decoded where
  /-- One operation. -/
  | instr (i : Instr)
  /-- `0000`: no request (R67). -/
  | idle
  /-- Two or more of `set`, `get`, `tick` without `rst`: illegal (R68). -/
  | overlap (req : BitVec 4)
  deriving DecidableEq, Repr

/-- The column `match` of R67's opcode map (bit 3 `rst`, bit 2 `set`, bit 1 `get`, bit 0 `tick`). -/
def Instr.opMatch : Instr → BitVec 4
  | .reset          => 0b1000#4
  | .setpayload _ _ => 0b0100#4
  | .getbyte        => 0b0010#4
  | .getsignal      => 0b0001#4

/-- The column `mask` of R67's opcode map: the bits of `req` that matter. -/
def Instr.opMask : Instr → BitVec 4
  | .reset          => 0b1000#4
  | .setpayload _ _ => 0b1111#4
  | .getbyte        => 0b1111#4
  | .getsignal      => 0b1111#4

/-- The request vector is that of this operation. -/
def Instr.selectedBy (i : Instr) (req : BitVec 4) : Bool := req &&& i.opMask == i.opMatch

/-- The operation a request asks for (R67): `RESET` wins over any other line; an operation without operands ignores what
the operand ports carry (log 15). -/
def decode (r : Request) : Decoded :=
  if Instr.reset.selectedBy r.req then .instr .reset
  else if (Instr.setpayload r.n r.src).selectedBy r.req then .instr (.setpayload r.n r.src)
  else if Instr.getbyte.selectedBy r.req then .instr .getbyte
  else if Instr.getsignal.selectedBy r.req then .instr .getsignal
  else if r.req = 0b0000#4 then .idle
  else .overlap r.req

/-- The request whose vector is R67's `match` of the operation, with the operation's operands; the operand ports of an
operation without operands carry nothing. -/
def encode : Instr → Request
  | .reset            => { req := Instr.reset.opMatch, n := 0, src := [] }
  | .setpayload n src => { req := (Instr.setpayload n src).opMatch, n := n, src := src }
  | .getbyte          => { req := Instr.getbyte.opMatch, n := 0, src := [] }
  | .getsignal        => { req := Instr.getsignal.opMatch, n := 0, src := [] }

/-- The request that a table word stands for: `req` is bits 3 to 0 of the word, the operands are zero and empty (log 18). -/
def requestOfWord (nbits w : Nat) : Request :=
  { req := BitVec.ofNat 4 (w % 2 ^ nbits), n := 0, src := [] }

/-- The operation the decoder reads from a table word. -/
def decodeTableWord (nbits w : Nat) : Option Instr :=
  match decode (requestOfWord nbits w) with
  | .instr i   => some i
  | .idle      => none
  | .overlap _ => none

end Sys2Proof
end

