-- ==== Sys2Proof/Config.lean ====
section
/-! DEFINITION. What an instance of the block fixes before reset (R6), and the free values: outputs and contents to which
the spec gives no value (R10, D7, D8). -/

namespace Sys2Proof

/-- The static parameters of R6. They stand beside the state, which no operation changes, so that a statement over all
states is a statement over all instances (DESIGN CHOICE, log 1). -/
structure Config where
  /-- `CAPACITY`: the number of byte cells of the queue. -/
  capacity : Nat
  /-- `FRAME_SLOTS`: the number of `GETSIGNAL` steps of a frame, 9 or 10. -/
  frameSlots : Nat
  /-- `LENW`: the width in bits of the length operand of `SETPAYLOAD`. -/
  lenw : Nat
  /-- `LINE_IDLE` (environment only): the level of the driver's line before the first OK tick; `none` is the spec's "unknown". -/
  lineIdle : Option Bool
  deriving DecidableEq, Repr

/-- The default instance `RTTYGEN(64, 9, 8)` (R2, R6), `LINE_IDLE` left unknown (D20). -/
def Config.default : Config := { capacity := 64, frameSlots := 9, lenw := 8, lineIdle := none }

/-- `CW`: the smallest w with 2^w > CAPACITY (R6); for CAPACITY ≥ 1 that is one more than the binary logarithm. -/
def Config.cw (c : Config) : Nat := Nat.log2 c.capacity + 1

/-- The ranges of R6: CAPACITY ≥ 1, FRAME_SLOTS 9 or 10, 2^LENW > CAPACITY. -/
structure Config.Valid (c : Config) : Prop where
  capacity_pos : 1 ≤ c.capacity
  slots        : c.frameSlots = 9 ∨ c.frameSlots = 10
  lenw_fits    : c.capacity < 2 ^ c.lenw

/-- The k-th free byte: nothing constrains it. Drawn for `data` with FINISHED (R63, R86, D7), and for `currentByte` and
every cell at power-on and at `RESET` (R27, R170, D8). Log 2, log 4, log 5, log 6. -/
opaque Config.freeByte : Nat → Byte

/-- The k-th free bit: nothing constrains it. Drawn for `bit` with FINISHED (R63, R102, D7). Log 6. -/
opaque Config.freeBit : Nat → Bool

end Sys2Proof
end

