-- ==== Sys2Proof/Machine/State.lean ====
section
/-! DEFINITION. The state: the two records of the block (R20), the instance they belong to (R6), the environment around
them (R122, R126), and the model's own interface fields. Plain data. -/

namespace Sys2Proof.Machine

/-- The cells of `bytes`, as (index, byte) pairs with strictly rising indices. Every cell of the array holds a byte and is
listed (R20, R40); an unlisted index is no cell and reads as nothing. Log 2. -/
abbrev Memory := List Host.Cell

/-- The canonical form of the memory. -/
abbrev Memory.wf (m : Memory) : Prop := m.Pairwise (fun a b => a.1 < b.1)

/-- The cells of an array that reset leaves unspecified (R27, R170): every cell holds any byte, here a free one, drawn from
the `draw`-th on. Log 2. -/
def Memory.unspecified (capacity draw : Nat) : Memory :=
  (List.range capacity).map (fun i => (i, Config.freeByte (draw + i)))

/-- The payload queue: R20's `bytes`, `length`, `readOffset`. -/
structure Queue where
  bytes      : Memory
  length     : Nat
  readOffset : Nat
  deriving DecidableEq, Repr

/-- The frame sequencer: R20's `currentByte`, `bitOffset`. -/
structure Sequencer where
  currentByte : Byte
  bitOffset   : Nat
  deriving DecidableEq, Repr

/-- The scheduler's record of the producer's task (R126). Environment. -/
structure Task where
  active           : Bool
  lastRunTimestamp : Nat
  period           : Nat
  deriving DecidableEq, Repr

/-- The environment's state: the driver's line (R122; `none` is a level not known) and the producer's task (R126). -/
structure Environment where
  line : Option Bool
  task : Task
  deriving DecidableEq, Repr

/-- The work of the producer's task when it runs (R129): the `SETPAYLOAD` it issues, and the period it re-schedules itself
with after each answer; `none` where it does not re-schedule itself (R130). Log 17. -/
structure Work where
  n         : Nat
  src       : List Byte
  afterOk   : Option Nat
  afterBusy : Option Nat
  deriving DecidableEq, Repr

/-- What the outside world presents in one step. -/
inductive Input where
  /-- A request of the block (R62). -/
  | request (r : Request)
  /-- A call of the scheduler's `schedule(period)` (R127). Environment. -/
  | schedule (period : Nat)
  /-- A call of the scheduler's `execute()` at the time `now` (R128), the task's work being `work`. Environment. -/
  | execute (now : Nat) (work : Work)
  deriving DecidableEq, Repr

/-- Why the machine stops with a fault. It is the model's own, in states no run reaches (R43), and safe. -/
inductive Fault where
  /-- A read at an index that is no cell of the array: one of `CAPACITY` or more (R31), or one the memory does not list.
  Raised by the read of `GETBYTE` and of `GETSIGNAL` at slot 0. Safe: R43 says no run reaches it. Log 3. -/
  | noSuchCell (index : Nat)
  deriving DecidableEq, Repr

/-- Why the machine gives a request no meaning. All are safe: the model stops where an implementation might go on. -/
inductive Refusal where
  /-- The instruction has no meaning yet. Raised by no arm of `exec`: every row of the opcode table has its meaning. -/
  | notModelled (mnemonic : String)
  /-- A request vector with two or more of `set`, `get`, `tick` and without `rst` (R68, R140). Raised by the step. -/
  | overlappingRequest (req : BitVec 4)
  /-- A `SETPAYLOAD` whose `src` has fewer than `min(n, CAPACITY)` elements (R65, R140). Raised by `SETPAYLOAD`. -/
  | sourceTooShort
  /-- A `SETPAYLOAD` whose `n` is no `LENW`-bit number: the port cannot carry it (R62). Raised by `SETPAYLOAD`. Log 12. -/
  | lengthTooWide
  deriving DecidableEq, Repr

/-- The whole state. `queue` and `seq` are the block (R20); `cfg` is its instance (R6); `env` is the environment; `resp`,
`draws` and `inputs` are the model's own: the outputs of the step just taken (R63), the number of free values drawn, and
what the outside world will present, oldest first. -/
structure State where
  cfg    : Config
  queue  : Queue
  seq    : Sequencer
  env    : Environment
  resp   : Response
  draws  : Nat
  inputs : List Input
  deriving DecidableEq, Repr

/-- The outcome of a step of this machine. -/
abbrev Outcome := Host.Outcome State Fault Refusal

/-- Power-on of an instance (R27, R171, R174): `length`, `readOffset` and `bitOffset` are 0; every cell and `currentByte`
are unspecified, each the next free byte (log 2, log 4); the environment starts as R122 and R126 say. -/
def State.resetWith (c : Config) : State where
  cfg    := c
  queue  := { bytes := Memory.unspecified c.capacity 0, length := 0, readOffset := 0 }
  seq    := { currentByte := Config.freeByte c.capacity, bitOffset := 0 }
  env    := { line := c.lineIdle, task := { active := false, lastRunTimestamp := 0, period := 0 } }
  resp   := .none
  draws  := c.capacity + 1
  inputs := []

/-- The machine right after reset, in the default instance (R6). -/
def State.reset : State := State.resetWith Config.default

end Sys2Proof.Machine
end

