-- ==== Sys2Proof/Machine/Flags.lean ====
section
/-! DEFINITION. The block's one predicate (R29); it stores no flag. -/

namespace Sys2Proof.Machine

/-- `drained`: every written byte has been read, `readOffset == length` (R10, R29). -/
def Queue.drained (q : Queue) : Bool := q.readOffset == q.length

end Sys2Proof.Machine
end

