-- ==== Sys2Proof/Machine/Operands.lean ====
section
/-! DEFINITION. How operands and outputs are assembled: the stored length and message of `SETPAYLOAD` (R65, R82), the bit
of each slot of the frame (R60, R61, R66) and the slot after it (R105). -/

namespace Sys2Proof.Machine

/-- The stored length `len = min(n, CAPACITY)` (R65, R82). -/
def storedLength (c : Config) (n : Nat) : Nat := min n c.capacity

/-- The stored message: the first `len` elements of `src`; the rest are ignored (R65, R82). -/
def storedMessage (c : Config) (n : Nat) (src : List Byte) : List Byte := src.take (storedLength c n)

/-- What the request of `SETPAYLOAD(n, src)` has no meaning for: an `n` the port cannot carry (R62), a `src` too short for
the length it is to supply (R65). -/
def setpayloadRefusal (c : Config) (n : Nat) (src : List Byte) : Option Refusal :=
  if 2 ^ c.lenw ≤ n then some .lengthTooWide
  else if src.length < storedLength c n then some .sourceTooShort
  else none

/-- The data bit at slot k, 1 ≤ k ≤ 7: bit k-1 of the byte as a boolean (R66). -/
def dataBit (b : Byte) (k : Nat) : Bool := b.getLsbD (k - 1)

/-- The bit emitted at slot k of the frame of a byte: start bit 0, data bits, stop bits 1 (R60, R61). -/
def frameBit (b : Byte) (k : Nat) : Bool :=
  if k = 0 then false
  else if k ≤ 7 then dataBit b k
  else true

/-- The frame of a byte in time order (R60, R61). -/
def frame (c : Config) (b : Byte) : List Bool := (List.range c.frameSlots).map (frameBit b)

/-- The slot after a slot that emitted a bit: the next one, and 0 from the last (R100, R105). A forced cursor at or above
FRAME_SLOTS goes to 0 (R71). -/
def nextSlot (c : Config) (k : Nat) : Nat := if c.frameSlots - 1 ≤ k then 0 else k + 1

end Sys2Proof.Machine
end

