-- ==== Sys2Proof/Machine/Ops.lean ====
section
/-! DEFINITION. The operations over memory, queue and outputs that the meanings share. The block takes no exception (R140,
R151): in the place of one stands a returned status, given by the answers at the end of this file. -/

namespace Sys2Proof.Machine

/-- The byte of a cell, `none` where the index is no cell of the memory. -/
def Memory.read : Memory → Nat → Option Byte
  | [], _ => none
  | c :: rest, i => if c.1 = i then some c.2 else Memory.read rest i

/-- `bytes[i] <- b` (R9), keeping the indices rising. -/
def Memory.write : Memory → Nat → Byte → Memory
  | [], i, b => [(i, b)]
  | c :: rest, i, b =>
    if i < c.1 then (i, b) :: c :: rest
    else if c.1 = i then (i, b) :: rest
    else c :: Memory.write rest i b

/-- The copy loop of R80 from index i on: cells i, i+1, ... take the bytes in order (R41, R83). -/
def Memory.writeFrom : Memory → Nat → List Byte → Memory
  | m, _, [] => m
  | m, i, b :: bs => Memory.writeFrom (Memory.write m i b) (i + 1) bs

/-- `MemRead(i, 1)` (R9): the byte of cell i of an array of `capacity` cells (R31, R40). Log 3. -/
def Queue.readCell (q : Queue) (capacity i : Nat) : Except Fault Byte :=
  if i < capacity then
    match Memory.read q.bytes i with
    | some b => .ok b
    | none   => .error (.noSuchCell i)
  else .error (.noSuchCell i)

/-- The queue's side of `GETBYTE` (R85), called directly and by the sequencer's pull (R110): nothing when drained, else
the byte at `readOffset` and the queue with `readOffset` advanced. -/
def Queue.pull (q : Queue) (capacity : Nat) : Except Fault (Option (Byte × Queue)) :=
  if q.drained then .ok none
  else
    match q.readCell capacity q.readOffset with
    | .ok b    => .ok (some (b, { q with readOffset := q.readOffset + 1 }))
    | .error f => .error f

/-- The queue's side of an admitted `SETPAYLOAD` (R80): the message copied into cells 0 on, its length stored, `readOffset`
back to 0. Cells beyond the message keep their content (R80, D13). -/
def Queue.store (q : Queue) (msg : List Byte) : Queue :=
  { bytes := Memory.writeFrom q.bytes 0 msg, length := msg.length, readOffset := 0 }

/-- The queue after reset (R170): no unread byte, and any byte in every cell (log 2). -/
def Queue.cleared (capacity draw : Nat) : Queue :=
  { bytes := Memory.unspecified capacity draw, length := 0, readOffset := 0 }

/-- The sequencer after reset (R170): at slot 0, with any byte in `currentByte` (log 5). -/
def Sequencer.cleared (draw : Nat) : Sequencer := { currentByte := Config.freeByte draw, bitOffset := 0 }

/-- The state after reset (R170): the block cleared with the next CAPACITY + 1 free bytes, no status (R145). -/
def State.cleared (s : State) : State :=
  { s with
    queue := Queue.cleared s.cfg.capacity s.draws
    seq   := Sequencer.cleared (s.draws + s.cfg.capacity)
    resp  := .none
    draws := s.draws + s.cfg.capacity + 1 }

/-- End the operation with these outputs (R63). -/
def State.answer (s : State) (r : Response) : State := { s with resp := r }

/-- No operation of the block: nothing is driven, and the block is unchanged (R67). -/
def State.quiet (s : State) : State := s.answer .none

/-- `GETBYTE` answers FINISHED (R86): `data` is a free value (D7), the block is unchanged (R142, R151). -/
def State.finishedByte (s : State) : State :=
  { s with resp := .byte .finished (Config.freeByte s.draws), draws := s.draws + 1 }

/-- `GETSIGNAL` answers FINISHED (R102): `bit` is a free value (D7), the block is unchanged (R142, R151). -/
def State.finishedSignal (s : State) : State :=
  { s with resp := .signal .finished (Config.freeBit s.draws), draws := s.draws + 1 }

end Sys2Proof.Machine
end

