-- ==== Sys2Proof/Machine/FrameSequencer.lean ====
section
/-! DEFINITION. The meaning of the frame sequencer's operation, `GETSIGNAL` (R100). -/

namespace Sys2Proof.Machine

/-- `GETSIGNAL` at slot 0 (R101, R102): pull a byte through `GETBYTE`'s operation; with one, latch it and emit the start
bit; with none, FINISHED and nothing changes. -/
def startSlot (s : State) : Outcome :=
  match s.queue.pull s.cfg.capacity with
  | .error f          => .fault f
  | .ok none          => .next s.finishedSignal
  | .ok (some (b, q)) =>
    .next { s with
      queue := q
      seq   := { currentByte := b, bitOffset := nextSlot s.cfg 0 }
      resp  := .signal .ok (frameBit b 0) }

/-- `GETSIGNAL` at any other slot (R103, R104; R71 for a forced cursor): emit the slot's bit of `currentByte` and move the
cursor; the queue is not touched. -/
def laterSlot (s : State) : Outcome :=
  .next { s with
    seq  := { s.seq with bitOffset := nextSlot s.cfg s.seq.bitOffset }
    resp := .signal .ok (frameBit s.seq.currentByte s.seq.bitOffset) }

/-- `GETSIGNAL` (R100). -/
def execGetsignal (s : State) : Outcome :=
  if s.seq.bitOffset = 0 then startSlot s else laterSlot s

end Sys2Proof.Machine
end

