-- ==== Sys2Proof/Machine/PayloadQueue.lean ====
section
/-! DEFINITION. The meanings of the payload queue's operations, `SETPAYLOAD` (R80) and `GETBYTE` (R85). -/

namespace Sys2Proof.Machine

/-- `SETPAYLOAD(n, src)` (R80): a request without a meaning is refused (R65); undrained, BUSY and nothing is written
(R81); drained, the first `min(n, CAPACITY)` bytes become the message (R82, R83) and the status is OK. -/
def execSetpayload (n : Nat) (src : List Byte) (s : State) : Outcome :=
  match setpayloadRefusal s.cfg n src with
  | some why => .refused why
  | none =>
    if s.queue.drained then
      .next { s with queue := s.queue.store (storedMessage s.cfg n src), resp := .write .ok }
    else .next (s.answer (.write .busy))

/-- `GETBYTE` (R85): drained, FINISHED and nothing changes (R86); else OK with the next unread byte, all 8 bits. -/
def execGetbyte (s : State) : Outcome :=
  match s.queue.pull s.cfg.capacity with
  | .error f          => .fault f
  | .ok none          => .next s.finishedByte
  | .ok (some (b, q)) => .next { s with queue := q, resp := .byte .ok b }

end Sys2Proof.Machine
end

