-- ==== Sys2Proof/Machine/Reset.lean ====
section
/-! DEFINITION. The meaning of `RESET` (R170). -/

namespace Sys2Proof.Machine

/-- `RESET` (R170): `length`, `readOffset` and `bitOffset` are 0; `currentByte` and every cell are any value, here free
ones. No status (R145). -/
def execReset (s : State) : Outcome := .next s.cleared

end Sys2Proof.Machine
end

