-- ==== Sys2Proof/Machine/Dispatch.lean ====
section
/-! DEFINITION. One arm per operation of the opcode table (R67). -/

namespace Sys2Proof.Machine

def exec (i : Instr) (s : State) : Host.Outcome State Fault Refusal :=
  match i with
  | .reset => Sys2Proof.Machine.execReset s
  | .setpayload n src => Sys2Proof.Machine.execSetpayload n src s
  | .getbyte => Sys2Proof.Machine.execGetbyte s
  | .getsignal => Sys2Proof.Machine.execGetsignal s

end Sys2Proof.Machine
end

