-- ==== Sys2Proof/Machine/Surroundings.lean ====
section
/-! DEFINITION. What stands around the block in a step: the request port (R62), the driver (R120, R121) and the scheduler
with the producer's task (R126 to R130). The rules of 42_environment.md bind the environment, not the block (R5). -/

namespace Sys2Proof.Machine

/-- Continue from a next state; a fault or a refusal stops. -/
def Outcome.thenDo (o : Outcome) (f : State → State) : Outcome :=
  match o with
  | .next s    => .next (f s)
  | .fault w   => .fault w
  | .refused w => .refused w

/-- The driver (R121): `line <- bit` when `GETSIGNAL` returned OK; the line is held on every other answer. -/
def State.driveLine (s : State) : State :=
  match s.resp with
  | .signal .ok b       => { s with env := { s.env with line := some b } }
  | .signal .finished _ => s
  | .signal .busy _     => s
  | .signal .error _    => s
  | .byte _ _           => s
  | .write _            => s
  | .none               => s

/-- One sampled request (R62): the operation it selects is performed and the driver sees its outputs; no request takes no
step (R67); an overlapping one is refused (R68). -/
def runRequest (r : Request) (s : State) : Outcome :=
  match decode r with
  | .instr i   => Outcome.thenDo (exec i s) State.driveLine
  | .idle      => .next s.quiet
  | .overlap v => .refused (.overlappingRequest v)

/-- `schedule(period)` (R127): active, with the period recorded; `lastRunTimestamp` is not written (D22). -/
def Task.schedule (t : Task) (period : Nat) : Task := { t with active := true, period := period }

/-- `execute(now)` runs the work (R128): the task is active and the elapsed time is not less than the period. -/
def Task.due (t : Task) (now : Nat) : Bool := t.active && decide (t.period ≤ now - t.lastRunTimestamp)

/-- The record when the work is invoked (R128): inactive, run at `now`. -/
def Task.started (t : Task) (now : Nat) : Task := { t with active := false, lastRunTimestamp := now }

/-- The record in the environment. -/
def State.withTask (s : State) (t : Task) : State := { s with env := { s.env with task := t } }

/-- The period the work re-schedules itself with, by the status its `SETPAYLOAD` returned (R129). -/
def Work.nextPeriod (w : Work) : Response → Option Nat
  | .write .ok       => w.afterOk
  | .write .busy     => w.afterBusy
  | .write .finished => none
  | .write .error    => none
  | .byte _ _        => none
  | .signal _ _      => none
  | .none            => none

/-- The end of the task's work (R129): it re-schedules itself, or does not and stays inactive (R130). -/
def Work.reschedule (w : Work) (s : State) : State :=
  match w.nextPeriod s.resp with
  | some p => s.withTask (s.env.task.schedule p)
  | none   => s

/-- `execute(now)` (R128): a no-op unless the task is due; else the task is marked inactive, `lastRunTimestamp` is updated
and the work runs: it issues its `SETPAYLOAD` and re-schedules itself (R129). -/
def runExecute (now : Nat) (w : Work) (s : State) : Outcome :=
  if s.env.task.due now then
    Outcome.thenDo (exec (.setpayload w.n w.src) (s.withTask (s.env.task.started now))) w.reschedule
  else .next s.quiet

/-- One input of the outside world. -/
def runInput (i : Input) (s : State) : Outcome :=
  match i with
  | .request r    => runRequest r s
  | .schedule p   => .next (s.withTask (s.env.task.schedule p)).quiet
  | .execute t w  => runExecute t w s

/-- One step: the oldest input is taken and acted on; with none left no request is raised and nothing happens (log 9). -/
def stepInput (s : State) : Outcome :=
  match s.inputs with
  | []        => .next s.quiet
  | i :: rest => runInput i { s with inputs := rest }

end Sys2Proof.Machine
end

