-- ==== Sys2Proof/Machine/Step.lean ====
section
/-! DEFINITION. The step of the machine, and the placing of a table word where the next step samples its request. -/

namespace Sys2Proof.Machine

/-- One step of the machine. -/
def step (s : State) : Host.Outcome State Fault Refusal := stepInput s

/-- The state with the request of a table word presented at the port for the very next step; the inputs that were waiting
come after it (log 8, log 18). -/
def State.withFetchWord (s : State) (nbits w : Nat) : State :=
  { s with inputs := .request (requestOfWord nbits w) :: s.inputs }

end Sys2Proof.Machine
end

