-- ==== Sys2Proof/Machine/Trace.lean ====
section
/-! DEFINITION. Programs of the block as traces (R73), and the pseudo-operations (R74): they expand to operations and add
no behaviour. -/

namespace Sys2Proof.Machine

/-- Perform operations one after another (R49) and collect what each answers, first on the left; `none` if one stops. -/
def trace : List Instr → State → Option (List Response × State)
  | [], s => some ([], s)
  | i :: rest, s =>
    match exec i s with
    | .next t    => (trace rest t).map (fun p => (t.resp :: p.1, p.2))
    | .fault _   => none
    | .refused _ => none

/-- `TICKS k` (R74): `GETSIGNAL` k times. -/
def ticks (k : Nat) : List Instr := List.replicate k .getsignal

/-- `DRAIN` (R74) on a queue with k unread bytes: `GETBYTE` until one returns FINISHED, that is k + 1 times. -/
def drain (k : Nat) : List Instr := List.replicate (k + 1) .getbyte

/-- `SEND msg` (R74), one attempt: `SETPAYLOAD(|msg|, msg)`. -/
def send (msg : List Byte) : Instr := .setpayload msg.length msg

/-- `SEND msg` (R74): attempts, each but the last followed by other operations, until one answers OK. The producer treats
BUSY as an instruction to try again later (R152). -/
def sendRetrying (msg : List Byte) : List (List Instr) → State → Option (List Response × State)
  | [], s => trace [send msg] s
  | other :: later, s =>
    match exec (send msg) s with
    | .next t =>
      if t.resp = .write .ok then some ([t.resp], t)
      else
        match trace other t with
        | some (rs, u) => (sendRetrying msg later u).map (fun p => (t.resp :: rs ++ p.1, p.2))
        | none         => none
    | .fault _   => none
    | .refused _ => none

/-- The (status, bit) results among the answers: what the consumer's tick port saw. -/
def signals : List Response → List (Status × Bool)
  | [] => []
  | .signal st b :: rest => (st, b) :: signals rest
  | .byte _ _ :: rest    => signals rest
  | .write _ :: rest     => signals rest
  | .none :: rest        => signals rest

/-- The number read from a frame's data bits: f[1] + 2 f[2] + ... + 64 f[7] (R108). -/
def decodedFrame (f : List Bool) : Nat :=
  (List.range 7).foldl (fun acc j => acc + 2 ^ j * (f.getD (j + 1) false).toNat) 0

end Sys2Proof.Machine
end

