-- ==== Sys2Proof/Safety.lean ====
section
/-! DEFINITION. What a safe run is: the invariant that every step keeps, and the states that are alike up to what no rule
reads. -/

namespace Sys2Proof

/-- Two outcomes of an operation agree on the block's outputs as far as they carry a meaning: the status, and the value
output with OK (R63). -/
def Response.agree : Response → Response → Prop
  | .none, .none => True
  | .write a, .write b => a = b
  | .byte a x, .byte b y => a = b ∧ (a = .ok → x = y)
  | .signal a x, .signal b y => a = b ∧ (a = .ok → x = y)
  | _, _ => False

/-- The same, answer by answer, for two runs. -/
def Response.agreeAll : List Response → List Response → Prop
  | [], [] => True
  | a :: as, b :: bs => Response.agree a b ∧ Response.agreeAll as bs
  | _, _ => False

end Sys2Proof

namespace Sys2Proof.Machine

/-- The invariant of a reachable queue: R24's `readOffset ≤ length ≤ CAPACITY`; the memory is in its canonical form and
lists every cell of the array, and no other (R20, R40). -/
structure Queue.Inv (c : Config) (q : Queue) : Prop where
  read_le    : q.readOffset ≤ q.length
  length_le  : q.length ≤ c.capacity
  bytes_wf   : Memory.wf q.bytes
  bytes_lt   : ∀ cell ∈ q.bytes, cell.1 < c.capacity
  cells      : ∀ i, i < c.capacity → (Memory.read q.bytes i).isSome

/-- The invariant of a reachable state: the instance is one of R6, the queue's invariant holds, and the cursor is below
FRAME_SLOTS (R26). -/
structure State.Inv (s : State) : Prop where
  cfg_valid : s.cfg.Valid
  queue_inv : s.queue.Inv s.cfg
  cursor_lt : s.seq.bitOffset < s.cfg.frameSlots

/-- The unread bytes of a queue, oldest first, as the cells list them. -/
def Queue.Holds (q : Queue) (msg : List Byte) : Prop :=
  msg.length = q.length - q.readOffset ∧ q.readOffset ≤ q.length ∧
    ∀ j (h : j < msg.length), Memory.read q.bytes (q.readOffset + j) = some msg[j]

/-- The block's own state (R20) is the same. -/
def State.SameBlock (s t : State) : Prop := t.queue = s.queue ∧ t.seq = s.seq

/-- What no operation of the block touches is the same: the instance (R6), the environment (R33) and the waiting inputs. -/
def State.SameOutside (s t : State) : Prop := t.cfg = s.cfg ∧ t.env = s.env ∧ t.inputs = s.inputs

/-- Two states alike in everything a rule reads (R172): the same instance, cursors and length; the same bytes in the cells
of the message; the same `currentByte` while a frame is under way. They may differ in `currentByte` at slot 0, in the cells
at and beyond `length`, and in the free values drawn so far. -/
structure State.Alike (s t : State) : Prop where
  cfg        : s.cfg = t.cfg
  length     : s.queue.length = t.queue.length
  readOffset : s.queue.readOffset = t.queue.readOffset
  bitOffset  : s.seq.bitOffset = t.seq.bitOffset
  bytes      : ∀ i, i < s.queue.length → Memory.read s.queue.bytes i = Memory.read t.queue.bytes i
  current    : s.seq.bitOffset ≠ 0 → s.seq.currentByte = t.seq.currentByte

end Sys2Proof.Machine
end

