-- ==== Sys2Proof/WellFormed.lean ====
section
/-! DEFINITION. The checks on an operation's operands: what the port can carry and what the spec gives a meaning to. -/

namespace Sys2Proof

/-- Why an operation is ill-formed. -/
inductive IllFormed where
  /-- `n` is no `LENW`-bit number (R62, R65). -/
  | lengthTooWide
  /-- `src` has fewer than `min(n, CAPACITY)` elements (R65, R182). -/
  | sourceTooShort
  deriving DecidableEq, Repr

/-- The first check an operation fails, if any. Only `SETPAYLOAD` has operands to check. -/
def Instr.illFormed (c : Config) : Instr → Option IllFormed
  | .reset            => none
  | .setpayload n src =>
    if 2 ^ c.lenw ≤ n then some .lengthTooWide
    else if src.length < min n c.capacity then some .sourceTooShort
    else none
  | .getbyte          => none
  | .getsignal        => none

/-- A well-formed operation on an instance of the block. -/
def Instr.wf (c : Config) (i : Instr) : Bool := (i.illFormed c).isNone

end Sys2Proof
end

