-- ==== Sys2Proof/Certificates/Slice0/Obligations.lean ====
section
/-! DEFINITION. The statements for the provers. Every statement about a state holds in every instance of R6: the instance
is a field of the state. -/

open Sys2Proof Sys2Proof.Machine

/-! ### Reset -/

/-- R171: after power-on `length` and `readOffset` are 0, so the queue is drained, and `bitOffset` is 0. Every cell of the
array holds a byte; nothing is said of which, nor of `currentByte`: they are unspecified. -/
def Obligations.PowerOnState : Prop :=
  ∀ c : Config,
    (State.resetWith c).queue.length = 0 ∧ (State.resetWith c).queue.readOffset = 0 ∧
    (State.resetWith c).queue.drained = true ∧ (State.resetWith c).seq.bitOffset = 0 ∧
    ∀ i, (Memory.read (State.resetWith c).queue.bytes i).isSome = true ↔ i < c.capacity

/-- R24, R26, R27: the invariant holds at power-on of every instance of R6, the default one among them. -/
def Obligations.PowerOnMeetsInvariant : Prop :=
  (∀ c : Config, c.Valid → (State.resetWith c).Inv ∧ (State.resetWith c).cfg = c) ∧ State.reset.Inv

/-- R170: `RESET` completes in every state; the cursors and the length are 0, the queue is drained, every cell of the array
holds a byte, it has no status. Nothing is said of which bytes `currentByte` and the cells hold. It is selected by every
vector with `rst`, whatever the other lines. After it the next `GETSIGNAL` is at slot 0, so a frame under way and unread
bytes are abandoned. The instance and the waiting inputs are as before; that the environment is too, the line included, is
the model's choice (DESIGN CHOICE, log 16), not R170's. -/
def Obligations.ResetRewindsAndWins : Prop :=
  (∀ s : State, ∃ t, exec .reset s = .next t ∧ t.queue.length = 0 ∧ t.queue.readOffset = 0 ∧ t.seq.bitOffset = 0 ∧
    t.queue.drained = true ∧ (∀ i, (Memory.read t.queue.bytes i).isSome = true ↔ i < s.cfg.capacity) ∧
    t.resp.status = none ∧ s.SameOutside t) ∧
  (∀ r : Request, r.req.getLsbD 3 = true → decode r = .instr .reset)

/-- R172: after `RESET`, `GETBYTE` answers FINISHED, any number of ticks answer FINISHED and stay at slot 0, and a
well-formed `SETPAYLOAD` answers OK; none of the reads changes the block. -/
def Obligations.FirstOperationsAfterReset : Prop :=
  ∀ s t : State, exec .reset s = .next t →
    (∃ u d, exec .getbyte t = .next u ∧ u.resp = .byte .finished d ∧ t.SameBlock u) ∧
    (∀ k, ∃ rs u, trace (ticks k) t = some (rs, u) ∧ signals rs = (signals rs).map (fun p => (.finished, p.2)) ∧
      (signals rs).length = k ∧ u.seq.bitOffset = 0 ∧ t.SameBlock u) ∧
    (∀ n src, (Instr.setpayload n src).wf t.cfg = true →
      ∃ u, exec (.setpayload n src) t = .next u ∧ u.resp = .write .ok)

/-- R174: nothing survives a reset. Two states of one instance, whatever their queues, cursors and contents, answer every
operation sequence after `RESET` alike, up to outputs that carry no meaning. -/
def Obligations.NothingPersistsAcrossReset : Prop :=
  ∀ (ops : List Instr) (s t : State) (rs : List Response) (s' : State), s.cfg = t.cfg →
    trace (.reset :: ops) s = some (rs, s') →
      ∃ rs' t', trace (.reset :: ops) t = some (rs', t') ∧ Response.agreeAll rs rs' ∧ s'.Alike t'

/-- R27, R172, D8, D13, D14: what reset leaves unspecified is never observed. States that differ only in cells at or beyond
`length`, in `currentByte` at slot 0 and in the free values drawn so far answer every operation sequence alike. -/
def Obligations.UnspecifiedValuesUnobservable : Prop :=
  ∀ (ops : List Instr) (s t : State) (rs : List Response) (s' : State), s.Alike t →
    s.queue.readOffset ≤ s.queue.length → s.queue.length ≤ s.cfg.capacity →
    trace ops s = some (rs, s') →
      ∃ rs' t', trace ops t = some (rs', t') ∧ Response.agreeAll rs rs' ∧ s'.Alike t'

/-! ### SETPAYLOAD -/

/-- R80, R81, R83: drained, a well-formed `SETPAYLOAD` answers OK; `length` is min(n, CAPACITY), `readOffset` 0, cell i of
the message is `src[i]`, every cell from min(n, CAPACITY) on reads as before, and nothing else changes; the queue stays
drained exactly when the stored length is 0. Undrained, it answers BUSY and nothing changes. Admission looks at the queue
alone: the sequencer's cursor is any. -/
def Obligations.SetpayloadStoresMessage : Prop :=
  ∀ (n : Nat) (src : List Byte) (s : State), (Instr.setpayload n src).wf s.cfg = true →
    (s.queue.readOffset = s.queue.length →
      ∃ q : Queue, exec (.setpayload n src) s = .next { s with queue := q, resp := .write .ok } ∧
        q.length = min n s.cfg.capacity ∧ q.readOffset = 0 ∧
        (∀ i (h : i < src.length), i < min n s.cfg.capacity → Memory.read q.bytes i = some src[i]) ∧
        (∀ i, min n s.cfg.capacity ≤ i → Memory.read q.bytes i = Memory.read s.queue.bytes i) ∧
        (q.drained = true ↔ min n s.cfg.capacity = 0)) ∧
    (s.queue.readOffset ≠ s.queue.length → exec (.setpayload n src) s = .next { s with resp := .write .busy })

/-- R65: a `src` shorter than min(n, CAPACITY) is refused; that it is refused on an undrained queue too, where R81 would let
a block answer BUSY, is the model's reading (DEDUCED, log 11). A long enough one is read only below min(n, CAPACITY);
n = 0 is legal with any `src` and stores the length 0. -/
def Obligations.SetpayloadOperandAssembly : Prop :=
  ∀ (n : Nat) (src : List Byte) (s : State), n < 2 ^ s.cfg.lenw →
    (src.length < min n s.cfg.capacity → exec (.setpayload n src) s = .refused .sourceTooShort) ∧
    (min n s.cfg.capacity ≤ src.length →
      (∃ t, exec (.setpayload n src) s = .next t ∧ (t.resp = .write .ok → t.queue.length = min n s.cfg.capacity)) ∧
      ∀ src' : List Byte, src'.take (min n s.cfg.capacity) = src.take (min n s.cfg.capacity) →
        exec (.setpayload n src') s = exec (.setpayload n src) s)

/-- R82: oversized input is truncated, not rejected. With n > CAPACITY the whole effect is that of a request for CAPACITY
bytes; on a drained queue the status is OK, `length` is CAPACITY and the cells hold the first CAPACITY bytes of `src`. -/
def Obligations.OversizedMessageTruncated : Prop :=
  ∀ (n : Nat) (src : List Byte) (s : State), (Instr.setpayload n src).wf s.cfg = true → s.cfg.capacity < n →
    exec (.setpayload n src) s = exec (.setpayload s.cfg.capacity (src.take s.cfg.capacity)) s ∧
    (s.queue.drained = true → ∃ t, exec (.setpayload n src) s = .next t ∧ t.resp = .write .ok ∧
      t.queue.length = s.cfg.capacity ∧
      ∀ i (h : i < src.length), i < s.cfg.capacity → Memory.read t.queue.bytes i = some src[i])

/-! ### GETBYTE -/

/-- R85: undrained, `GETBYTE` answers OK with the byte of cell `readOffset`, all 8 bits, and advances `readOffset` by one;
nothing else changes. Drained, it answers FINISHED and the block is unchanged. -/
def Obligations.GetbyteReturnsNextByte : Prop :=
  ∀ s : State,
    (∀ b : Byte, s.queue.readOffset ≠ s.queue.length → s.queue.readOffset < s.cfg.capacity →
      Memory.read s.queue.bytes s.queue.readOffset = some b →
      exec .getbyte s =
        .next { s with queue := { s.queue with readOffset := s.queue.readOffset + 1 }, resp := .byte .ok b }) ∧
    (s.queue.readOffset = s.queue.length →
      ∃ t d, exec .getbyte s = .next t ∧ t.resp = .byte .finished d ∧ s.SameBlock t ∧ s.SameOutside t)

/-- R86: FINISHED is not sticky. After any number of FINISHED reads, the first read after a non-empty message is admitted
answers OK with its first byte. -/
def Obligations.FinishedIsNotSticky : Prop :=
  ∀ (k n : Nat) (src : List Byte) (s : State), (Instr.setpayload n src).wf s.cfg = true → s.queue.drained = true →
    0 < min n s.cfg.capacity →
    ∃ ds u t, trace (List.replicate k .getbyte) s = some (ds, u) ∧ (∀ r ∈ ds, r.status = some .finished) ∧ s.SameBlock u ∧
      trace [.setpayload n src, .getbyte] u = some ([.write .ok, .byte .ok (src.headD 0)], t)

/-! ### GETSIGNAL -/

/-- R101: at slot 0 with a byte to pull, `GETSIGNAL` latches all 8 bits of it, advances `readOffset`, emits 0, moves the
cursor to 1 and answers OK; nothing else changes. This is the only place where `currentByte` changes, `RESET` apart, and the
only place where the sequencer reads the queue: a tick at any other slot answers and moves the same over any queue. -/
def Obligations.StartSlotPullsByte : Prop :=
  (∀ (s : State) (b : Byte), s.cfg.Valid → s.seq.bitOffset = 0 → s.queue.readOffset < s.queue.length →
    s.queue.readOffset < s.cfg.capacity → Memory.read s.queue.bytes s.queue.readOffset = some b →
    exec .getsignal s =
      .next { s with queue := { s.queue with readOffset := s.queue.readOffset + 1 },
                     seq := { currentByte := b, bitOffset := 1 }, resp := .signal .ok false }) ∧
  (∀ (i : Instr) (s t : State), exec i s = .next t → t.seq.currentByte ≠ s.seq.currentByte →
    i = .reset ∨ (i = .getsignal ∧ s.seq.bitOffset = 0 ∧ s.queue.readOffset ≠ s.queue.length)) ∧
  (∀ (s : State) (q : Queue), s.seq.bitOffset ≠ 0 →
    ∃ k r, exec .getsignal { s with queue := q } =
      .next { s with queue := q, seq := { s.seq with bitOffset := k }, resp := r } ∧
      exec .getsignal s = .next { s with seq := { s.seq with bitOffset := k }, resp := r })

/-- R102: at slot 0 with a drained queue, `GETSIGNAL` answers FINISHED and changes no state, however often it is issued,
until a message of at least one byte is admitted; the first tick after that emits the start bit and latches its first
byte. -/
def Obligations.StartSlotHoldsWhileDrained : Prop :=
  ∀ (k : Nat) (s : State), s.cfg.Valid → s.seq.bitOffset = 0 → s.queue.readOffset = s.queue.length →
    ∃ rs t, trace (ticks k) s = some (rs, t) ∧ rs.length = k ∧ (∀ r ∈ rs, ∃ d, r = .signal .finished d) ∧
      s.SameBlock t ∧ s.SameOutside t ∧
      ∀ n src, (Instr.setpayload n src).wf s.cfg = true → 0 < min n s.cfg.capacity →
        ∃ u, trace [.setpayload n src, .getsignal] t = some ([.write .ok, .signal .ok false], u) ∧
          u.seq = { currentByte := src.headD 0, bitOffset := 1 }

/-- R103: at slots 1 to 7 `GETSIGNAL` emits bit (slot - 1) of `currentByte`, moves the cursor by one and answers OK,
whatever the queue's state; nothing else changes. -/
def Obligations.DataSlotsEmitBits : Prop :=
  ∀ s : State, s.cfg.Valid → 1 ≤ s.seq.bitOffset → s.seq.bitOffset ≤ 7 →
    exec .getsignal s =
      .next { s with seq := { s.seq with bitOffset := s.seq.bitOffset + 1 },
                     resp := .signal .ok (s.seq.currentByte.getLsbD (s.seq.bitOffset - 1)) }

/-- R104: the stop slots emit 1 and answer OK without touching the queue. With nine slots, slot 8 returns the cursor to 0;
with ten, slot 8 moves to slot 9 and slot 9 returns to 0. -/
def Obligations.StopSlotsEmitOne : Prop :=
  ∀ s : State,
    (s.cfg.frameSlots = 9 → s.seq.bitOffset = 8 →
      exec .getsignal s = .next { s with seq := { s.seq with bitOffset := 0 }, resp := .signal .ok true }) ∧
    (s.cfg.frameSlots = 10 → s.seq.bitOffset = 8 →
      exec .getsignal s = .next { s with seq := { s.seq with bitOffset := 9 }, resp := .signal .ok true }) ∧
    (s.cfg.frameSlots = 10 → s.seq.bitOffset = 9 →
      exec .getsignal s = .next { s with seq := { s.seq with bitOffset := 0 }, resp := .signal .ok true })

/-- R71, log 14: a cursor forced to FRAME_SLOTS or above emits 1 and goes to 0; nothing else changes. -/
def Obligations.ForcedCursorReturnsToZero : Prop :=
  ∀ s : State, s.cfg.Valid → s.cfg.frameSlots ≤ s.seq.bitOffset →
    exec .getsignal s = .next { s with seq := { s.seq with bitOffset := 0 }, resp := .signal .ok true }

/-- R105, R106: the cursor's transitions. With OK `GETSIGNAL` moves it by exactly one slot, from the last slot to 0; with
FINISHED it holds it at 0; `RESET` sets it to 0; no other operation touches it. -/
def Obligations.CursorTransitions : Prop :=
  ∀ (i : Instr) (s t : State), s.cfg.Valid → s.seq.bitOffset < s.cfg.frameSlots → exec i s = .next t →
    (i = .getsignal → ∃ st b, t.resp = .signal st b ∧
      ((st = .ok ∧ t.seq.bitOffset = (s.seq.bitOffset + 1) % s.cfg.frameSlots) ∨
       (st = .finished ∧ s.seq.bitOffset = 0 ∧ s.queue.readOffset = s.queue.length ∧ t.seq.bitOffset = 0))) ∧
    (i = .reset → t.seq.bitOffset = 0) ∧
    (i ≠ .getsignal → i ≠ .reset → t.seq.bitOffset = s.seq.bitOffset)

/-- R107: frame atomicity. Once a frame has begun, and until its last slot has been emitted, its ticks emit exactly the
remaining bits of the frame of the byte latched, whatever `SETPAYLOAD` and `GETBYTE` operations come between them; the byte
is not replaced, the queue goes as if the ticks were not there (so no second byte is pulled), and the cursor counts the
ticks. -/
def Obligations.FrameAtomicity : Prop :=
  ∀ (ops : List Instr) (s t : State) (rs : List Response), s.cfg.Valid →
    1 ≤ s.seq.bitOffset → s.seq.bitOffset < s.cfg.frameSlots → s.seq.bitOffset + ops.count .getsignal ≤ s.cfg.frameSlots → .reset ∉ ops →
    trace ops s = some (rs, t) →
      signals rs =
        (((frame s.cfg s.seq.currentByte).drop s.seq.bitOffset).take (ops.count .getsignal)).map (fun b => (.ok, b)) ∧
      t.seq.currentByte = s.seq.currentByte ∧
      t.seq.bitOffset = (s.seq.bitOffset + ops.count .getsignal) % s.cfg.frameSlots ∧
      ∃ rs' t', trace (ops.filter (· ≠ .getsignal)) s = some (rs', t') ∧ t'.queue = t.queue

/-- R108: the frame of a byte has FRAME_SLOTS bits, the first 0, those of slot 8 and of the last slot 1, and reading bits 1
to 7 gives the low 7 bits of the byte; two bytes have the same frame exactly when their low 7 bits are the same. -/
def Obligations.FrameDecodesToLowSevenBits : Prop :=
  ∀ (c : Config) (b b' : Byte), c.Valid →
    (frame c b).length = c.frameSlots ∧ (frame c b)[0]? = some false ∧ (frame c b)[8]? = some true ∧
    (frame c b)[c.frameSlots - 1]? = some true ∧ decodedFrame (frame c b) = b.toNat % 128 ∧
    (frame c b = frame c b' ↔ b.toNat % 128 = b'.toNat % 128)

/-- R112: from slot 0 with L ≥ 1 unread bytes, ticks 1 to L·FRAME_SLOTS answer OK and emit the frames of the bytes in
order; the queue becomes drained at tick (L - 1)·FRAME_SLOTS + 1; every later tick answers FINISHED at slot 0. -/
def Obligations.MessageTransmittedFrameByFrame : Prop :=
  ∀ (s : State) (msg : List Byte), s.cfg.Valid → s.seq.bitOffset = 0 → s.queue.Holds msg → 1 ≤ msg.length →
    s.queue.length ≤ s.cfg.capacity →
    (∃ rs t, trace (ticks (msg.length * s.cfg.frameSlots)) s = some (rs, t) ∧
      signals rs = (msg.flatMap (frame s.cfg)).map (fun b => (.ok, b)) ∧ t.seq.bitOffset = 0 ∧ t.queue.drained = true ∧
      ∀ k, ∃ rs' u, trace (ticks k) t = some (rs', u) ∧ (∀ r ∈ rs', r.status = some .finished) ∧ t.SameBlock u) ∧
    (∀ k rs t, trace (ticks k) s = some (rs, t) →
      (t.queue.drained = true ↔ (msg.length - 1) * s.cfg.frameSlots + 1 ≤ k))

/-- R111: message boundaries. (a) The pull of the last byte drains the queue at that byte's slot 0, and a new message is
then admitted mid-frame without touching the sequencer; (b) admitted before the tick after the last stop slot, its first
byte is pulled by that tick; (c) otherwise every tick answers FINISHED. -/
def Obligations.MessageBoundaries : Prop :=
  ∀ (s : State) (n : Nat) (src : List Byte), s.cfg.Valid → s.seq.bitOffset = 0 → (Instr.setpayload n src).wf s.cfg = true →
    0 < min n s.cfg.capacity →
    (∀ t, s.queue.readOffset + 1 = s.queue.length → exec .getsignal s = .next t →
      t.queue.drained = true ∧ t.seq.bitOffset = 1 ∧
      ∃ u, exec (.setpayload n src) t = .next u ∧ u.resp = .write .ok ∧ u.seq = t.seq) ∧
    (s.queue.drained = true →
      (∃ u, trace [.setpayload n src, .getsignal] s = some ([.write .ok, .signal .ok false], u) ∧
        u.seq.currentByte = src.headD 0) ∧
      (∀ k, ∃ rs u, trace (ticks k) s = some (rs, u) ∧ (∀ r ∈ rs, r.status = some .finished) ∧ s.SameBlock u))

/-- R181: a direct `GETBYTE` between two frames takes a byte that is then never transmitted: the ticks that follow emit the
frames of the bytes after it, if there are any, and then every tick answers FINISHED. -/
def Obligations.DirectReadStealsByte : Prop :=
  ∀ (s : State) (a : Byte) (msg : List Byte), s.cfg.Valid → s.seq.bitOffset = 0 → s.queue.Holds (a :: msg) →
    s.queue.length ≤ s.cfg.capacity →
    ∃ rs t, trace (.getbyte :: ticks (msg.length * s.cfg.frameSlots)) s = some (.byte .ok a :: rs, t) ∧
      signals rs = (msg.flatMap (frame s.cfg)).map (fun x => (.ok, x)) ∧ t.seq.bitOffset = 0 ∧
      ∀ k, ∃ rs' u, trace (ticks k) t = some (rs', u) ∧ (∀ r ∈ rs', r.status = some .finished) ∧ t.SameBlock u

/-- R189: progress. From every state that meets the invariant, with L unread bytes, at most (L + 1)·FRAME_SLOTS ticks drain
the queue, and the next well-formed `SETPAYLOAD` answers OK. -/
def Obligations.TicksDrainTheQueue : Prop :=
  ∀ s : State, s.Inv →
    ∃ k rs t, k ≤ (s.queue.length - s.queue.readOffset + 1) * s.cfg.frameSlots ∧ trace (ticks k) s = some (rs, t) ∧
      t.queue.drained = true ∧
      ∀ n src, (Instr.setpayload n src).wf s.cfg = true → ∃ u, exec (.setpayload n src) t = .next u ∧ u.resp = .write .ok

/-- R152, R179, R189: a refused message is sent by offering it again. From every state that meets the invariant there is a
number of ticks after which a `SEND` refused at first is admitted; the last answer is OK and the queue then holds the
message, cut to CAPACITY. -/
def Obligations.RetriedSendIsAdmitted : Prop :=
  ∀ (s : State) (msg : List Byte), s.Inv → (send msg).wf s.cfg = true →
    ∃ k rs t, sendRetrying msg [ticks k] s = some (rs, t) ∧ rs.getLast? = some (.write .ok) ∧
      t.queue.Holds (msg.take s.cfg.capacity)

/-! ### Laws of the queue -/

/-- R88: round trip. On a drained queue, `SETPAYLOAD(n, src)` and then min(n, CAPACITY) + 1 reads answer OK, the first
min(n, CAPACITY) bytes of `src` in order, and FINISHED; the sequencer is not touched. -/
def Obligations.PayloadRoundTrip : Prop :=
  ∀ (n : Nat) (src : List Byte) (s : State), (Instr.setpayload n src).wf s.cfg = true → s.queue.drained = true →
    ∃ d t, trace (.setpayload n src :: drain (min n s.cfg.capacity)) s =
        some (.write .ok :: ((src.take (min n s.cfg.capacity)).map (fun b => .byte .ok b) ++ [.byte .finished d]), t) ∧
      t.queue.drained = true ∧ t.seq = s.seq ∧ s.SameOutside t

/-- R89: busy law. Of two writes back to back on a drained queue the second answers BUSY when the first stored at least one
byte, and draining recovers the first message; when the first stored none, the second is admitted. -/
def Obligations.SecondWriteIsBusy : Prop :=
  ∀ (n m : Nat) (src src' : List Byte) (s : State), (Instr.setpayload n src).wf s.cfg = true →
    (Instr.setpayload m src').wf s.cfg = true → s.queue.drained = true →
    (0 < min n s.cfg.capacity → ∃ d t,
      trace (.setpayload n src :: .setpayload m src' :: drain (min n s.cfg.capacity)) s =
        some (.write .ok :: .write .busy ::
          ((src.take (min n s.cfg.capacity)).map (fun b => .byte .ok b) ++ [.byte .finished d]), t)) ∧
    (min n s.cfg.capacity = 0 → ∃ t, trace [.setpayload n src, .setpayload m src'] s = some ([.write .ok, .write .ok], t))

/-- R87: every operation preserves `readOffset ≤ length ≤ CAPACITY`. -/
def Obligations.QueueBoundsPreserved : Prop :=
  ∀ (i : Instr) (s t : State), s.queue.readOffset ≤ s.queue.length → s.queue.length ≤ s.cfg.capacity →
    exec i s = .next t → t.queue.readOffset ≤ t.queue.length ∧ t.queue.length ≤ t.cfg.capacity

/-- R20, R6, R109: in every state that meets the invariant the values fit their registers: CW bits for `length` and
`readOffset`, where CW is the smallest width that holds CAPACITY, and 4 bits for `bitOffset`. -/
def Obligations.ValuesFitTheirRegisters : Prop :=
  ∀ s : State, s.Inv →
    s.queue.length < 2 ^ s.cfg.cw ∧ s.queue.readOffset < 2 ^ s.cfg.cw ∧ s.seq.bitOffset < 2 ^ 4 ∧
    (∀ w, s.cfg.capacity < 2 ^ w → s.cfg.cw ≤ w)

/-! ### Statuses and agents -/

/-- R145, R144: which operation returns which status, and when; ERROR is returned by none. -/
def Obligations.StatusTable : Prop :=
  ∀ (i : Instr) (s t : State), exec i s = .next t →
    match i with
    | .reset => t.resp.status = none
    | .setpayload _ _ => t.resp.status = some (if s.queue.readOffset = s.queue.length then .ok else .busy)
    | .getbyte => t.resp.status = some (if s.queue.readOffset = s.queue.length then .finished else .ok)
    | .getsignal => t.resp.status =
        some (if s.seq.bitOffset = 0 ∧ s.queue.readOffset = s.queue.length then .finished else .ok)

/-- R64: the codes of the statuses at the port; no two share one. -/
def Obligations.StatusCodes : Prop :=
  Status.ok.code = 0b00#2 ∧ Status.finished.code = 0b01#2 ∧ Status.busy.code = 0b10#2 ∧ Status.error.code = 0b11#2 ∧
  ∀ a b : Status, a.code = b.code → a = b

/-- R141, R142, R143, R151: only with OK does the block change; after every other status it is exactly as it was. No
operation changes the instance or the waiting inputs, nor the environment, which is not the block's (R33); that `RESET`
leaves the environment too is the model's choice (DESIGN CHOICE, log 16). -/
def Obligations.NonOkChangesNothing : Prop :=
  ∀ (i : Instr) (s t : State), exec i s = .next t →
    s.SameOutside t ∧ (∀ st, t.resp.status = some st → st ≠ .ok → s.SameBlock t)

/-- R20, R49(d), R156: what each agent's operations may change. The producer never touches the sequencer; the consumer
never writes a cell or the length; a direct `GETBYTE` leaves the sequencer alone. -/
def Obligations.AgentsTouchOnlyTheirState : Prop :=
  ∀ (i : Instr) (s t : State), exec i s = .next t →
    (i.agent = .producer → t.seq = s.seq) ∧
    (i.agent = .consumer → t.queue.bytes = s.queue.bytes ∧ t.queue.length = s.queue.length ∧
      (t.queue.readOffset = s.queue.readOffset ∨ t.queue.readOffset = s.queue.readOffset + 1)) ∧
    (i = .getbyte → t.seq = s.seq)

/-- R140, R158: from every state that meets the invariant every well-formed operation has a next state; an ill-formed one
is refused in every state. R65 refuses a `src` that is too short; that it is refused on an undrained queue too, where R81
would let a block answer BUSY, is the model's reading (DEDUCED, log 11), and so is the refusal of an `n` of 2^LENW or more,
which is none of R140's two, the model's choice (DESIGN CHOICE, log 12). -/
def Obligations.LegalOperationsComplete : Prop :=
  ∀ (i : Instr) (s : State),
    (s.Inv → i.wf s.cfg = true → ∃ t, exec i s = .next t) ∧
    (i.wf s.cfg = false → exec i s = .refused .sourceTooShort ∨ exec i s = .refused .lengthTooWide)

/-! ### Requests and the step -/

/-- R67, R68: the complete opcode map, all sixteen vectors. -/
def Obligations.OpcodeMap : Prop :=
  ∀ (n : Nat) (src : List Byte),
    (∀ v : BitVec 4, 8 ≤ v.toNat → decode ⟨v, n, src⟩ = .instr .reset) ∧
    decode ⟨0b0100#4, n, src⟩ = .instr (.setpayload n src) ∧ decode ⟨0b0010#4, n, src⟩ = .instr .getbyte ∧
    decode ⟨0b0001#4, n, src⟩ = .instr .getsignal ∧ decode ⟨0b0000#4, n, src⟩ = .idle ∧
    ∀ v ∈ [0b0011#4, 0b0101#4, 0b0110#4, 0b0111#4], decode ⟨v, n, src⟩ = .overlap v

/-- The words of spec/opcode_table.json decode to their operations, the don't-care bits of `RESET` at both ends. -/
def Obligations.TableWordsDecode : Prop :=
  decodeTableWord 8 0b1000 = some .reset ∧ decodeTableWord 8 0b1111 = some .reset ∧
  decodeTableWord 8 0b0100 = some (.setpayload 0 []) ∧ decodeTableWord 8 0b0010 = some .getbyte ∧
  decodeTableWord 8 0b0001 = some .getsignal ∧ decodeTableWord 8 0b0000 = none ∧ decodeTableWord 8 0b0011 = none

/-- Decoding and encoding agree: the encoding of an operation decodes to it with both operands at every value; and a
request that decodes to an operation other than `RESET` has that operation's vector, and its operands where it has any. -/
def Obligations.DecodeAndEncodeAgree : Prop :=
  (∀ i : Instr, decode (encode i) = .instr i) ∧
  (∀ (r : Request) (i : Instr), decode r = .instr i →
    (i = .reset ∧ r.req.getLsbD 3 = true) ∨
    ((encode i).req = r.req ∧ (i.agent = .producer → encode i = r)))

/-- A step runs the decoded operation: when the request at the head of the inputs decodes to i, the step takes that input,
performs `exec i`, and the driver of R121 sees the outputs. A table word placed by `withFetchWord` is such a request. -/
def Obligations.StepRunsDecodedOperation : Prop :=
  (∀ (s : State) (r : Request) (rest : List Input) (i : Instr), s.inputs = .request r :: rest → decode r = .instr i →
    step s = Outcome.thenDo (exec i { s with inputs := rest }) State.driveLine) ∧
  (∀ (s : State) (nbits w : Nat) (i : Instr), decodeTableWord nbits w = some i →
    step (s.withFetchWord nbits w) = Outcome.thenDo (exec i s) State.driveLine)

/-- R67, R68: no request takes no step of the block; two or three of `set`, `get`, `tick` together without `rst` are refused
by name, in no order. That the machine's step then answers, with the input 0000 taken and the outputs cleared, and answers
the same way when no input is waiting, is the model's choice (DESIGN CHOICE, log 9). -/
def Obligations.IdleAndOverlappingRequests : Prop :=
  ∀ s : State,
    (s.inputs = [] → step s = .next { s with resp := .none }) ∧
    ∀ (r : Request) (rest : List Input), s.inputs = .request r :: rest →
      (r.req = 0b0000#4 → step s = .next { s with inputs := rest, resp := .none }) ∧
      (r.req ∈ [0b0011#4, 0b0101#4, 0b0110#4, 0b0111#4] → step s = .refused (.overlappingRequest r.req))

/-- R24, R26, R87: the invariant is kept by every step, whatever the outside world presents. -/
def Obligations.StepKeepsInvariant : Prop :=
  ∀ s t : State, s.Inv → step s = .next t → t.Inv

/-- R140, R43: no step faults from a state that meets the invariant; so no run reads at an index that is no cell. -/
def Obligations.StepNeverFaults : Prop :=
  ∀ (s : State) (f : Fault), s.Inv → step s ≠ .fault f

/-- R6: no step changes the instance. -/
def Obligations.StepKeepsInstance : Prop :=
  ∀ s t : State, step s = .next t → t.cfg = s.cfg

/-! ### The environment -/

/-- R121: on a tick that answers OK the line takes the bit; on every other answer, and on every other input, it is held. The
driver does nothing else: after the operation of a request the step answers what the operation left, with the line as the
only change. That the line is held on a `RESET` too is the model's choice (DESIGN CHOICE, log 16). -/
def Obligations.LineFollowsOkTicks : Prop :=
  (∀ s t : State, step s = .next t →
    (∀ b, t.resp = .signal .ok b → t.env.line = some b) ∧ ((∀ b, t.resp ≠ .signal .ok b) → t.env.line = s.env.line)) ∧
  (∀ (s u : State) (r : Request) (rest : List Input) (i : Instr), s.inputs = .request r :: rest → decode r = .instr i →
    exec i { s with inputs := rest } = .next u →
      (∀ b, u.resp = .signal .ok b → step s = .next { u with env := { u.env with line := some b } }) ∧
      ((∀ b, u.resp ≠ .signal .ok b) → step s = .next u))

/-- R122: the line is 1 during every run of FINISHED ticks after a complete frame. From the last slot of a frame with a
drained queue, one tick and then k more leave the line at 1. -/
def Obligations.LineHighBetweenMessages : Prop :=
  ∀ (s : State) (k : Nat) (rest : List Input), s.cfg.Valid → s.seq.bitOffset + 1 = s.cfg.frameSlots →
    s.queue.drained = true → s.inputs = List.replicate (k + 1) (.request (encode .getsignal)) ++ rest →
    ∃ t, Sys2Proof.core.run (k + 1) s = .next t ∧ t.env.line = some true ∧ t.seq.bitOffset = 0 ∧ t.queue = s.queue ∧
      t.inputs = rest

/-- R127: `schedule(period)` marks the task active and records the period; it does not run the work and does not write
`lastRunTimestamp` (D22); the block is unchanged. -/
def Obligations.ScheduleMarksTaskActive : Prop :=
  ∀ (s : State) (p : Nat) (rest : List Input), s.inputs = .schedule p :: rest →
    ∃ t, step s = .next t ∧ s.SameBlock t ∧ t.inputs = rest ∧ t.env.line = s.env.line ∧
      t.env.task = { active := true, lastRunTimestamp := s.env.task.lastRunTimestamp, period := p }

/-- R128: `execute(now)` is a no-op while the task is inactive or less than the period has elapsed; from then on it marks
the task inactive, updates `lastRunTimestamp` and invokes the work once: the answer is that of one `SETPAYLOAD`. That the
work is one `SETPAYLOAD` with an optional re-schedule, in the same step, and that a time before `lastRunTimestamp` counts as
no time elapsed, is the model's choice (DESIGN CHOICE, log 17); so are the outputs cleared by the no-op (log 7). -/
def Obligations.ExecuteRunsDueTask : Prop :=
  ∀ (s : State) (now : Nat) (w : Work) (rest : List Input), s.inputs = .execute now w :: rest →
    (s.env.task.active = false ∨ now - s.env.task.lastRunTimestamp < s.env.task.period →
      step s = .next { s with inputs := rest, resp := .none }) ∧
    (∀ u, s.env.task.active = true → s.env.task.period ≤ now - s.env.task.lastRunTimestamp →
      exec (.setpayload w.n w.src) s = .next u →
      ∃ t, step s = .next t ∧ u.SameBlock t ∧ t.resp = u.resp ∧ t.inputs = rest ∧ t.env.line = s.env.line ∧
        t.env.task.lastRunTimestamp = now ∧
        (w.afterOk = none → w.afterBusy = none →
          t.env.task = { active := false, lastRunTimestamp := now, period := s.env.task.period }))

/-- R129, R130: after the work has run, BUSY re-schedules the task with the one period and OK with the other. With no period
for the status it got, the task is inactive, and however many inputs follow, of any kind but `schedule`, its record stays and
an `execute` after them does nothing. The form of the work is the model's choice (DESIGN CHOICE, log 17); so are the outputs
cleared by that no-op (DESIGN CHOICE, log 7), and that a `RESET` among those inputs leaves the record (DESIGN CHOICE,
log 16). -/
def Obligations.TaskReschedulesByStatus : Prop :=
  ∀ (s t : State) (now : Nat) (w : Work) (rest : List Input), s.inputs = .execute now w :: rest →
    s.env.task.due now = true → step s = .next t →
    (∀ p, t.resp = .write .ok → w.afterOk = some p → t.env.task = { active := true, lastRunTimestamp := now, period := p }) ∧
    (∀ p, t.resp = .write .busy → w.afterBusy = some p →
      t.env.task = { active := true, lastRunTimestamp := now, period := p }) ∧
    ((t.resp = .write .ok ∧ w.afterOk = none) ∨ (t.resp = .write .busy ∧ w.afterBusy = none) →
      t.env.task = { active := false, lastRunTimestamp := now, period := s.env.task.period } ∧
      ∀ (k : Nat) (u : State), (∀ p, .schedule p ∉ t.inputs.take k) → Sys2Proof.core.run k t = .next u →
        u.env.task = t.env.task ∧
        ∀ (now' : Nat) (w' : Work) (rest' : List Input), u.inputs = .execute now' w' :: rest' →
          step u = .next { u with inputs := rest', resp := .none })
end

