-- ==== Sys2Proof/Laws/Memory.lean ====
section
/-! SUPPORT. The laws of the memory: read after write, every other cell left alone, the canonical form kept. -/

namespace Sys2Proof.Machine

@[simp] theorem Memory.read_nil (i : Nat) : Memory.read [] i = none := rfl

/-- A cell reads what was written to it. -/
@[simp] theorem Memory.read_write_same (m : Memory) (i : Nat) (b : Byte) : Memory.read (Memory.write m i b) i = some b := by
  induction m with
  | nil => simp [Memory.write, Memory.read]
  | cons c rest ih =>
    unfold Memory.write
    split
    · simp [Memory.read]
    · split
      · simp [Memory.read]
      · simp [Memory.read, *]

/-- A write leaves every other cell alone. -/
theorem Memory.read_write_other {m : Memory} {i j : Nat} {b : Byte} (h : j ≠ i) :
    Memory.read (Memory.write m i b) j = Memory.read m j := by
  induction m with
  | nil => simp [Memory.write, Memory.read, Ne.symm h]
  | cons c rest ih =>
    unfold Memory.write
    split
    · simp [Memory.read, Ne.symm h]
    · split
      · next hc => simp [Memory.read, Ne.symm h, hc]
      · simp [Memory.read, ih]

/-- The listed cells after a write are those before it and the one written. -/
theorem Memory.mem_write {m : Memory} {i : Nat} {b : Byte} {c : Host.Cell} (h : c ∈ Memory.write m i b) :
    c = (i, b) ∨ c ∈ m := by
  induction m with
  | nil => simpa [Memory.write] using h
  | cons d rest ih =>
    unfold Memory.write at h
    split at h
    · simpa using h
    · split at h
      · rcases List.mem_cons.1 h with rfl | h
        · exact .inl rfl
        · exact .inr (List.mem_cons_of_mem _ h)
      · rcases List.mem_cons.1 h with rfl | h
        · exact .inr (List.mem_cons_self)
        · exact (ih h).imp_right (List.mem_cons_of_mem _)

/-- A write keeps the canonical form. -/
theorem Memory.write_wf {m : Memory} {i : Nat} {b : Byte} (h : Memory.wf m) : Memory.wf (Memory.write m i b) := by
  induction m with
  | nil => simp [Memory.write]
  | cons c rest ih =>
    obtain ⟨hc, hr⟩ := List.pairwise_cons.1 h
    unfold Memory.write
    split
    · next hi =>
      refine List.pairwise_cons.2 ⟨fun d hd => ?_, h⟩
      rcases List.mem_cons.1 hd with rfl | hd
      · exact hi
      · exact Nat.lt_trans hi (hc d hd)
    · split
      · next hi => exact List.pairwise_cons.2 ⟨fun d hd => hi ▸ hc d hd, hr⟩
      · next h1 h2 =>
        refine List.pairwise_cons.2 ⟨fun d hd => ?_, ih hr⟩
        rcases Memory.mem_write hd with rfl | hd
        · show c.1 < i
          omega
        · exact hc d hd

/-- After the copy loop, cell i + j holds element j of the message. -/
theorem Memory.read_writeFrom_inside (bs : List Byte) :
    ∀ (m : Memory) (i j : Nat) (h : j < bs.length), Memory.read (Memory.writeFrom m i bs) (i + j) = some bs[j] := by
  induction bs with
  | nil => intro m i j h; simp at h
  | cons b bs ih =>
    have outside : ∀ (cs : List Byte) (m : Memory) (i k : Nat), k < i →
        Memory.read (Memory.writeFrom m i cs) k = Memory.read m k := by
      intro cs
      induction cs with
      | nil => intros; rfl
      | cons c cs ihc =>
        intro m i k hk
        rw [Memory.writeFrom, ihc _ _ _ (by omega), Memory.read_write_other (by omega)]
    intro m i j h
    cases j with
    | zero => rw [Memory.writeFrom, Nat.add_zero, outside _ _ _ _ (by omega)]; simp
    | succ j =>
      have := ih (Memory.write m i b) (i + 1) j (by simpa using h)
      rw [Memory.writeFrom, show i + (j + 1) = i + 1 + j by omega, this]
      simp

/-- The copy loop leaves every cell outside the message alone. -/
theorem Memory.read_writeFrom_outside (bs : List Byte) :
    ∀ (m : Memory) (i k : Nat), k < i ∨ i + bs.length ≤ k →
      Memory.read (Memory.writeFrom m i bs) k = Memory.read m k := by
  induction bs with
  | nil => intros; rfl
  | cons b bs ih =>
    intro m i k h
    simp only [List.length_cons] at h
    rw [Memory.writeFrom, ih _ _ _ (by omega), Memory.read_write_other (by omega)]

/-- The listed cells after the copy loop are those before it and cells of the message. -/
theorem Memory.mem_writeFrom (bs : List Byte) :
    ∀ {m : Memory} {i : Nat} {c : Host.Cell}, c ∈ Memory.writeFrom m i bs → c.1 < i + bs.length ∨ c ∈ m := by
  induction bs with
  | nil => intro m i c h; exact .inr h
  | cons b bs ih =>
    intro m i c h
    rcases ih h with h | h
    · simp only [List.length_cons]; omega
    · rcases Memory.mem_write h with rfl | h
      · simp
      · exact .inr h

/-- The copy loop keeps the canonical form. -/
theorem Memory.writeFrom_wf (bs : List Byte) :
    ∀ {m : Memory} {i : Nat}, Memory.wf m → Memory.wf (Memory.writeFrom m i bs) := by
  induction bs with
  | nil => intro m i h; exact h
  | cons b bs ih => intro m i h; exact ih (Memory.write_wf h)

/-- The copy loop takes no cell away. -/
theorem Memory.read_writeFrom_isSome (bs : List Byte) :
    ∀ {m : Memory} {i k : Nat}, (Memory.read m k).isSome → (Memory.read (Memory.writeFrom m i bs) k).isSome := by
  induction bs with
  | nil => intro m i k h; exact h
  | cons b bs ih =>
    intro m i k h
    refine ih ?_
    by_cases hk : k = i
    · subst hk; simp
    · rwa [Memory.read_write_other hk]

/-- A cell is read when it is listed. -/
theorem Memory.read_isSome_of_mem {m : Memory} {c : Host.Cell} (h : c ∈ m) : (Memory.read m c.1).isSome := by
  induction m with
  | nil => cases h
  | cons d rest ih =>
    unfold Memory.read
    split
    · rfl
    · next hd => exact ih ((List.mem_cons.1 h).resolve_left fun e => hd (e ▸ rfl))

/-- Only listed cells are read. -/
theorem Memory.mem_of_read {m : Memory} {i : Nat} (h : (Memory.read m i).isSome) : ∃ c ∈ m, c.1 = i := by
  induction m with
  | nil => cases h
  | cons d rest ih =>
    unfold Memory.read at h
    split at h
    · next hd => exact ⟨d, List.mem_cons_self, hd⟩
    · obtain ⟨c, hc, he⟩ := ih h
      exact ⟨c, List.mem_cons_of_mem _ hc, he⟩

/-- The unspecified cells are those of the array. -/
theorem Memory.mem_unspecified {cap d : Nat} {c : Host.Cell} :
    c ∈ Memory.unspecified cap d ↔ c.1 < cap ∧ c.2 = Config.freeByte (d + c.1) := by
  simp only [Memory.unspecified, List.mem_map, List.mem_range]
  constructor
  · rintro ⟨i, hi, rfl⟩; exact ⟨hi, rfl⟩
  · rintro ⟨hi, hb⟩; exact ⟨c.1, hi, by rw [← hb]⟩

/-- Exactly the cells of the array hold a byte after reset. -/
theorem Memory.read_unspecified_isSome {cap d i : Nat} : (Memory.read (Memory.unspecified cap d) i).isSome ↔ i < cap := by
  constructor
  · intro h
    obtain ⟨c, hc, rfl⟩ := Memory.mem_of_read h
    exact (Memory.mem_unspecified.1 hc).1
  · intro h
    exact Memory.read_isSome_of_mem (c := (i, Config.freeByte (d + i))) (Memory.mem_unspecified.2 ⟨h, rfl⟩)

/-- The unspecified cells have the canonical form. -/
theorem Memory.unspecified_wf (cap d : Nat) : Memory.wf (Memory.unspecified cap d) :=
  List.pairwise_map.2 (List.pairwise_lt_range.imp fun h => h)

/-- The memory at power-on has the canonical form. -/
theorem State.resetWith_wf (c : Config) : Memory.wf (State.resetWith c).queue.bytes := Memory.unspecified_wf _ _

/-- The memory of `State.reset` has the canonical form. -/
theorem State.reset_wf : Memory.wf State.reset.queue.bytes := State.resetWith_wf _

end Sys2Proof.Machine
end

