-- ==== Sys2Proof/Laws/State.lean ====
section
/-! SUPPORT. What each update of the state leaves in each field, so that no proof unfolds a record update. -/

namespace Sys2Proof.Machine

variable (s : State)

@[simp] theorem State.answer_cfg (r : Response) : (s.answer r).cfg = s.cfg := rfl
@[simp] theorem State.answer_queue (r : Response) : (s.answer r).queue = s.queue := rfl
@[simp] theorem State.answer_seq (r : Response) : (s.answer r).seq = s.seq := rfl
@[simp] theorem State.answer_env (r : Response) : (s.answer r).env = s.env := rfl
@[simp] theorem State.answer_resp (r : Response) : (s.answer r).resp = r := rfl
@[simp] theorem State.answer_draws (r : Response) : (s.answer r).draws = s.draws := rfl
@[simp] theorem State.answer_inputs (r : Response) : (s.answer r).inputs = s.inputs := rfl

@[simp] theorem State.quiet_cfg : (s.quiet).cfg = s.cfg := rfl
@[simp] theorem State.quiet_queue : (s.quiet).queue = s.queue := rfl
@[simp] theorem State.quiet_seq : (s.quiet).seq = s.seq := rfl
@[simp] theorem State.quiet_env : (s.quiet).env = s.env := rfl
@[simp] theorem State.quiet_resp : (s.quiet).resp = .none := rfl
@[simp] theorem State.quiet_draws : (s.quiet).draws = s.draws := rfl
@[simp] theorem State.quiet_inputs : (s.quiet).inputs = s.inputs := rfl

@[simp] theorem State.finishedByte_cfg : (s.finishedByte).cfg = s.cfg := rfl
@[simp] theorem State.finishedByte_queue : (s.finishedByte).queue = s.queue := rfl
@[simp] theorem State.finishedByte_seq : (s.finishedByte).seq = s.seq := rfl
@[simp] theorem State.finishedByte_env : (s.finishedByte).env = s.env := rfl
@[simp] theorem State.finishedByte_resp : (s.finishedByte).resp = .byte .finished (Config.freeByte s.draws) := rfl
@[simp] theorem State.finishedByte_draws : (s.finishedByte).draws = s.draws + 1 := rfl
@[simp] theorem State.finishedByte_inputs : (s.finishedByte).inputs = s.inputs := rfl

@[simp] theorem State.finishedSignal_cfg : (s.finishedSignal).cfg = s.cfg := rfl
@[simp] theorem State.finishedSignal_queue : (s.finishedSignal).queue = s.queue := rfl
@[simp] theorem State.finishedSignal_seq : (s.finishedSignal).seq = s.seq := rfl
@[simp] theorem State.finishedSignal_env : (s.finishedSignal).env = s.env := rfl
@[simp] theorem State.finishedSignal_resp : (s.finishedSignal).resp = .signal .finished (Config.freeBit s.draws) := rfl
@[simp] theorem State.finishedSignal_draws : (s.finishedSignal).draws = s.draws + 1 := rfl
@[simp] theorem State.finishedSignal_inputs : (s.finishedSignal).inputs = s.inputs := rfl

@[simp] theorem State.withTask_cfg (t : Task) : (s.withTask t).cfg = s.cfg := rfl
@[simp] theorem State.withTask_queue (t : Task) : (s.withTask t).queue = s.queue := rfl
@[simp] theorem State.withTask_seq (t : Task) : (s.withTask t).seq = s.seq := rfl
@[simp] theorem State.withTask_env (t : Task) : (s.withTask t).env = { s.env with task := t } := rfl
@[simp] theorem State.withTask_resp (t : Task) : (s.withTask t).resp = s.resp := rfl
@[simp] theorem State.withTask_draws (t : Task) : (s.withTask t).draws = s.draws := rfl
@[simp] theorem State.withTask_inputs (t : Task) : (s.withTask t).inputs = s.inputs := rfl

@[simp] theorem State.withFetchWord_cfg (nbits w : Nat) : (s.withFetchWord nbits w).cfg = s.cfg := rfl
@[simp] theorem State.withFetchWord_queue (nbits w : Nat) : (s.withFetchWord nbits w).queue = s.queue := rfl
@[simp] theorem State.withFetchWord_seq (nbits w : Nat) : (s.withFetchWord nbits w).seq = s.seq := rfl
@[simp] theorem State.withFetchWord_env (nbits w : Nat) : (s.withFetchWord nbits w).env = s.env := rfl
@[simp] theorem State.withFetchWord_resp (nbits w : Nat) : (s.withFetchWord nbits w).resp = s.resp := rfl
@[simp] theorem State.withFetchWord_draws (nbits w : Nat) : (s.withFetchWord nbits w).draws = s.draws := rfl
@[simp] theorem State.withFetchWord_inputs (nbits w : Nat) : (s.withFetchWord nbits w).inputs = .request (requestOfWord nbits w) :: s.inputs := rfl

@[simp] theorem State.driveLine_cfg : s.driveLine.cfg = s.cfg := by
  unfold State.driveLine; split <;> rfl
@[simp] theorem State.driveLine_queue : s.driveLine.queue = s.queue := by
  unfold State.driveLine; split <;> rfl
@[simp] theorem State.driveLine_seq : s.driveLine.seq = s.seq := by
  unfold State.driveLine; split <;> rfl
@[simp] theorem State.driveLine_resp : s.driveLine.resp = s.resp := by
  unfold State.driveLine; split <;> rfl
@[simp] theorem State.driveLine_draws : s.driveLine.draws = s.draws := by
  unfold State.driveLine; split <;> rfl
@[simp] theorem State.driveLine_inputs : s.driveLine.inputs = s.inputs := by
  unfold State.driveLine; split <;> rfl
@[simp] theorem State.driveLine_env_task : s.driveLine.env.task = s.env.task := by
  unfold State.driveLine; split <;> rfl

/-- On OK the driver applies the bit (R121). -/
theorem State.driveLine_ok {b : Bool} (h : s.resp = .signal .ok b) : s.driveLine.env.line = some b := by
  simp [State.driveLine, h]

/-- On every other answer the driver holds the line (R121). -/
theorem State.driveLine_hold (h : ∀ b, s.resp ≠ .signal .ok b) : s.driveLine = s := by
  unfold State.driveLine
  split <;> first | rfl | exact absurd ‹_› (h _)

@[simp] theorem Queue.store_length (q : Queue) (msg : List Byte) : (q.store msg).length = msg.length := rfl
@[simp] theorem Queue.store_readOffset (q : Queue) (msg : List Byte) : (q.store msg).readOffset = 0 := rfl
@[simp] theorem Queue.store_bytes (q : Queue) (msg : List Byte) :
    (q.store msg).bytes = Memory.writeFrom q.bytes 0 msg := rfl

@[simp] theorem Queue.cleared_length (cap d : Nat) : (Queue.cleared cap d).length = 0 := rfl
@[simp] theorem Queue.cleared_readOffset (cap d : Nat) : (Queue.cleared cap d).readOffset = 0 := rfl
@[simp] theorem Queue.cleared_bytes (cap d : Nat) : (Queue.cleared cap d).bytes = Memory.unspecified cap d := rfl

@[simp] theorem Sequencer.cleared_currentByte (d : Nat) : (Sequencer.cleared d).currentByte = Config.freeByte d := rfl
@[simp] theorem Sequencer.cleared_bitOffset (d : Nat) : (Sequencer.cleared d).bitOffset = 0 := rfl

@[simp] theorem State.cleared_cfg : s.cleared.cfg = s.cfg := rfl
@[simp] theorem State.cleared_queue : s.cleared.queue = Queue.cleared s.cfg.capacity s.draws := rfl
@[simp] theorem State.cleared_seq : s.cleared.seq = Sequencer.cleared (s.draws + s.cfg.capacity) := rfl
@[simp] theorem State.cleared_env : s.cleared.env = s.env := rfl
@[simp] theorem State.cleared_resp : s.cleared.resp = .none := rfl
@[simp] theorem State.cleared_draws : s.cleared.draws = s.draws + s.cfg.capacity + 1 := rfl
@[simp] theorem State.cleared_inputs : s.cleared.inputs = s.inputs := rfl

@[simp] theorem Task.schedule_active (t : Task) (p : Nat) : (t.schedule p).active = true := rfl
@[simp] theorem Task.schedule_period (t : Task) (p : Nat) : (t.schedule p).period = p := rfl
@[simp] theorem Task.schedule_lastRunTimestamp (t : Task) (p : Nat) :
    (t.schedule p).lastRunTimestamp = t.lastRunTimestamp := rfl
@[simp] theorem Task.started_active (t : Task) (now : Nat) : (t.started now).active = false := rfl
@[simp] theorem Task.started_period (t : Task) (now : Nat) : (t.started now).period = t.period := rfl
@[simp] theorem Task.started_lastRunTimestamp (t : Task) (now : Nat) : (t.started now).lastRunTimestamp = now := rfl

end Sys2Proof.Machine
end

