-- ==== Sys2Proof/Laws/Ops.lean ====
section
/-! SUPPORT. What each shared operation can do, said once. -/

namespace Sys2Proof

theorem Config.Valid.slots_ge {c : Config} (h : c.Valid) : 9 ≤ c.frameSlots := by
  rcases h.slots with h | h <;> omega

end Sys2Proof

namespace Sys2Proof.Machine

@[simp] theorem Queue.drained_iff (q : Queue) : q.drained = true ↔ q.readOffset = q.length := by
  simp [Queue.drained]

@[simp] theorem Queue.not_drained_iff (q : Queue) : q.drained = false ↔ q.readOffset ≠ q.length := by
  simp [Queue.drained]

/-! ### Operands -/

/-- The request is refused exactly when the operation is ill-formed. -/
theorem setpayloadRefusal_none_iff (c : Config) (n : Nat) (src : List Byte) :
    setpayloadRefusal c n src = none ↔ (Instr.setpayload n src).wf c = true := by
  unfold setpayloadRefusal Instr.wf Instr.illFormed
  split
  · next hn => simp [hn]
  · next hn =>
    split <;> next hs =>
      simp only [storedLength] at hs
      simp only [hn, hs, if_false, if_true]
      simp

theorem setpayload_wf_iff (c : Config) (n : Nat) (src : List Byte) :
    (Instr.setpayload n src).wf c = true ↔ n < 2 ^ c.lenw ∧ min n c.capacity ≤ src.length := by
  simp only [Instr.wf, Instr.illFormed]
  split
  · simp; omega
  · split <;> simp <;> omega

/-- A refused request is refused for one of two reasons. -/
theorem setpayloadRefusal_cases {c : Config} {n : Nat} {src : List Byte} {r : Refusal}
    (h : setpayloadRefusal c n src = some r) :
    (r = .lengthTooWide ∧ 2 ^ c.lenw ≤ n) ∨ (r = .sourceTooShort ∧ n < 2 ^ c.lenw ∧ src.length < min n c.capacity) := by
  unfold setpayloadRefusal at h
  split at h
  · next hn => exact .inl ⟨(Option.some.inj h).symm, hn⟩
  · next hn =>
    split at h
    · next hs => exact .inr ⟨(Option.some.inj h).symm, Nat.lt_of_not_le hn, hs⟩
    · simp at h

/-- The stored message of a well-formed request has min(n, CAPACITY) bytes. -/
theorem storedMessage_length {c : Config} {n : Nat} {src : List Byte} (h : (Instr.setpayload n src).wf c = true) :
    (storedMessage c n src).length = min n c.capacity := by
  have := ((setpayload_wf_iff c n src).1 h).2
  simp only [storedMessage, storedLength, List.length_take]; omega

theorem storedMessage_length_le (c : Config) (n : Nat) (src : List Byte) :
    (storedMessage c n src).length ≤ c.capacity := by
  simp only [storedMessage, storedLength, List.length_take]; omega

/-! ### The frame -/

@[simp] theorem frameBit_start (b : Byte) : frameBit b 0 = false := rfl

theorem frameBit_data {b : Byte} {k : Nat} (h1 : 1 ≤ k) (h7 : k ≤ 7) : frameBit b k = b.getLsbD (k - 1) := by
  simp only [frameBit, dataBit]
  rw [if_neg (by omega), if_pos h7]

theorem frameBit_stop {b : Byte} {k : Nat} (h : 8 ≤ k) : frameBit b k = true := by
  simp only [frameBit]
  rw [if_neg (by omega), if_neg (by omega)]

@[simp] theorem frame_length (c : Config) (b : Byte) : (frame c b).length = c.frameSlots := by simp [frame]

@[simp] theorem frame_getElem (c : Config) (b : Byte) (k : Nat) (h : k < (frame c b).length) :
    (frame c b)[k] = frameBit b k := by simp [frame]

theorem nextSlot_next {c : Config} {k : Nat} (h : k + 1 < c.frameSlots) : nextSlot c k = k + 1 := by
  simp only [nextSlot]; rw [if_neg (by omega)]

theorem nextSlot_wrap {c : Config} {k : Nat} (h : c.frameSlots ≤ k + 1) : nextSlot c k = 0 := by
  simp only [nextSlot]; rw [if_pos (by omega)]

/-- Below FRAME_SLOTS the cursor counts modulo FRAME_SLOTS. -/
theorem nextSlot_eq_mod {c : Config} {k : Nat} (h : k < c.frameSlots) : nextSlot c k = (k + 1) % c.frameSlots := by
  by_cases hk : k + 1 < c.frameSlots
  · rw [nextSlot_next hk, Nat.mod_eq_of_lt hk]
  · rw [nextSlot_wrap (by omega), show k + 1 = c.frameSlots by omega, Nat.mod_self]

theorem nextSlot_lt {c : Config} {k : Nat} (h : 0 < c.frameSlots) : nextSlot c k < c.frameSlots := by
  simp only [nextSlot]; split <;> omega

/-! ### The queue -/

/-- Everything a read of a cell can answer. -/
theorem Queue.readCell_cases (q : Queue) (cap i : Nat) :
    (∃ b, q.readCell cap i = .ok b ∧ i < cap ∧ Memory.read q.bytes i = some b) ∨
    (q.readCell cap i = .error (.noSuchCell i) ∧ (cap ≤ i ∨ Memory.read q.bytes i = none)) := by
  unfold Queue.readCell
  split
  · next h =>
    split
    · next b hb => exact .inl ⟨b, rfl, h, hb⟩
    · next hb => exact .inr ⟨rfl, .inr hb⟩
  · next h => exact .inr ⟨rfl, .inl (Nat.le_of_not_lt h)⟩

/-- Everything a pull can answer (R85). -/
theorem Queue.pull_cases (q : Queue) (cap : Nat) :
    (q.pull cap = .ok none ∧ q.readOffset = q.length) ∨
    (∃ b, q.pull cap = .ok (some (b, { q with readOffset := q.readOffset + 1 })) ∧ q.readOffset ≠ q.length ∧
      q.readOffset < cap ∧ Memory.read q.bytes q.readOffset = some b) ∨
    (∃ f, q.pull cap = .error f ∧ q.readOffset ≠ q.length ∧
      (cap ≤ q.readOffset ∨ Memory.read q.bytes q.readOffset = none)) := by
  unfold Queue.pull
  split
  · next h => exact .inl ⟨rfl, (q.drained_iff).1 h⟩
  · next h =>
    have hd : q.readOffset ≠ q.length := fun e => h ((q.drained_iff).2 e)
    rcases q.readCell_cases cap q.readOffset with ⟨b, hr, hc, hb⟩ | ⟨hr, hbad⟩
    · exact .inr (.inl ⟨b, by rw [hr], hd, hc, hb⟩)
    · exact .inr (.inr ⟨_, by rw [hr], hd, hbad⟩)

theorem Queue.pull_drained {q : Queue} {cap : Nat} (h : q.readOffset = q.length) : q.pull cap = .ok none := by
  simp [Queue.pull, Queue.drained, h]

theorem Queue.pull_byte {q : Queue} {cap : Nat} {b : Byte} (hd : q.readOffset ≠ q.length) (hc : q.readOffset < cap)
    (hb : Memory.read q.bytes q.readOffset = some b) :
    q.pull cap = .ok (some (b, { q with readOffset := q.readOffset + 1 })) := by
  simp [Queue.pull, Queue.drained, hd, Queue.readCell, hc, hb]

/-- The stored queue meets the invariant (R87). -/
theorem Queue.store_inv {c : Config} {q : Queue} {msg : List Byte} (h : q.Inv c) (hm : msg.length ≤ c.capacity) :
    (q.store msg).Inv c where
  read_le := Nat.zero_le _
  length_le := hm
  bytes_wf := Memory.writeFrom_wf msg h.bytes_wf
  bytes_lt := fun cell hc => (Memory.mem_writeFrom msg hc).elim (fun hl => by omega) (h.bytes_lt cell)
  cells := fun i hi => Memory.read_writeFrom_isSome msg (h.cells i hi)

/-- The queue after a pulled byte meets the invariant (R87). -/
theorem Queue.advance_inv {c : Config} {q : Queue} (h : q.Inv c) (hd : q.readOffset ≠ q.length) :
    ({ q with readOffset := q.readOffset + 1 } : Queue).Inv c where
  read_le := by have := h.read_le; show q.readOffset + 1 ≤ q.length; omega
  length_le := h.length_le
  bytes_wf := h.bytes_wf
  bytes_lt := h.bytes_lt
  cells := h.cells

/-- The queue after reset meets the invariant (R87). -/
theorem Queue.cleared_inv (c : Config) (draw : Nat) : (Queue.cleared c.capacity draw).Inv c where
  read_le := Nat.le_refl _
  length_le := Nat.zero_le _
  bytes_wf := Memory.unspecified_wf _ _
  bytes_lt := fun _ h => (Memory.mem_unspecified.1 h).1
  cells := fun _ h => Memory.read_unspecified_isSome.2 h

/-- A pull never stops on a queue that meets the invariant (R43). -/
theorem Queue.pull_never_stops {c : Config} {q : Queue} (h : q.Inv c) {f : Fault} : q.pull c.capacity ≠ .error f := by
  rcases q.pull_cases c.capacity with ⟨hp, -⟩ | ⟨b, hp, -⟩ | ⟨g, -, hd, hbad⟩
  · simp [hp]
  · simp [hp]
  · have h1 := h.read_le
    have h2 := h.length_le
    have h3 := h.cells q.readOffset (by omega)
    rcases hbad with hbad | hbad
    · omega
    · simp [hbad] at h3

end Sys2Proof.Machine
end

