-- ==== Sys2Proof/Laws/Exec.lean ====
section
/-! SUPPORT. What an operation can do, and what a trace of operations can do, said once. -/

namespace Sys2Proof.Machine

/-- Everything an operation can do when it has a next state. -/
theorem exec_next_cases {i : Instr} {s t : State} (h : exec i s = .next t) :
    (i = .reset ∧ t = s.cleared) ∨
    (∃ n src, i = .setpayload n src ∧ (Instr.setpayload n src).wf s.cfg = true ∧
      ((s.queue.readOffset = s.queue.length ∧
          t = { s with queue := s.queue.store (storedMessage s.cfg n src), resp := .write .ok }) ∨
       (s.queue.readOffset ≠ s.queue.length ∧ t = s.answer (.write .busy)))) ∨
    (i = .getbyte ∧ s.queue.readOffset = s.queue.length ∧ t = s.finishedByte) ∨
    (∃ b, i = .getbyte ∧ s.queue.readOffset ≠ s.queue.length ∧ s.queue.readOffset < s.cfg.capacity ∧
      Memory.read s.queue.bytes s.queue.readOffset = some b ∧
      t = { s with queue := { s.queue with readOffset := s.queue.readOffset + 1 }, resp := .byte .ok b }) ∨
    (i = .getsignal ∧ s.seq.bitOffset = 0 ∧ s.queue.readOffset = s.queue.length ∧ t = s.finishedSignal) ∨
    (∃ b, i = .getsignal ∧ s.seq.bitOffset = 0 ∧ s.queue.readOffset ≠ s.queue.length ∧
      s.queue.readOffset < s.cfg.capacity ∧ Memory.read s.queue.bytes s.queue.readOffset = some b ∧
      t = { s with
        queue := { s.queue with readOffset := s.queue.readOffset + 1 }
        seq   := { currentByte := b, bitOffset := nextSlot s.cfg 0 }
        resp  := .signal .ok false }) ∨
    (i = .getsignal ∧ s.seq.bitOffset ≠ 0 ∧
      t = { s with
        seq  := { s.seq with bitOffset := nextSlot s.cfg s.seq.bitOffset }
        resp := .signal .ok (frameBit s.seq.currentByte s.seq.bitOffset) }) := by
  cases i with
  | reset => exact .inl ⟨rfl, (Host.Outcome.next.inj h).symm⟩
  | setpayload n src =>
    refine .inr (.inl ⟨n, src, rfl, ?_⟩)
    simp only [exec, execSetpayload] at h
    split at h
    · cases h
    · next hr =>
      refine ⟨(setpayloadRefusal_none_iff _ _ _).1 hr, ?_⟩
      split at h
      · next hd => exact .inl ⟨(s.queue.drained_iff).1 hd, (Host.Outcome.next.inj h).symm⟩
      · next hd => exact .inr ⟨fun e => hd ((s.queue.drained_iff).2 e), (Host.Outcome.next.inj h).symm⟩
  | getbyte =>
    simp only [exec, execGetbyte] at h
    rcases s.queue.pull_cases s.cfg.capacity with ⟨hp, hd⟩ | ⟨b, hp, hd, hc, hb⟩ | ⟨f, hp, -⟩ <;> rw [hp] at h
    · exact .inr (.inr (.inl ⟨rfl, hd, (Host.Outcome.next.inj h).symm⟩))
    · exact .inr (.inr (.inr (.inl ⟨b, rfl, hd, hc, hb, (Host.Outcome.next.inj h).symm⟩)))
    · cases h
  | getsignal =>
    simp only [exec, execGetsignal] at h
    split at h
    · next h0 =>
      simp only [startSlot] at h
      rcases s.queue.pull_cases s.cfg.capacity with ⟨hp, hd⟩ | ⟨b, hp, hd, hc, hb⟩ | ⟨f, hp, -⟩ <;> rw [hp] at h
      · exact .inr (.inr (.inr (.inr (.inl ⟨rfl, h0, hd, (Host.Outcome.next.inj h).symm⟩))))
      · exact .inr (.inr (.inr (.inr (.inr (.inl ⟨b, rfl, h0, hd, hc, hb, (Host.Outcome.next.inj h).symm⟩)))))
      · cases h
    · next h0 =>
      exact .inr (.inr (.inr (.inr (.inr (.inr ⟨rfl, h0, (Host.Outcome.next.inj h).symm⟩)))))

/-- An operation faults only at the read of a pull on an undrained queue: the index is no cell. -/
theorem exec_fault_cases {i : Instr} {s : State} {f : Fault} (h : exec i s = .fault f) :
    s.queue.pull s.cfg.capacity = .error f ∧ (i = .getbyte ∨ i = .getsignal) := by
  cases i with
  | reset => cases h
  | setpayload n src =>
    simp only [exec, execSetpayload] at h
    split at h
    · cases h
    · split at h <;> cases h
  | getbyte =>
    simp only [exec, execGetbyte] at h
    rcases s.queue.pull_cases s.cfg.capacity with ⟨hp, -⟩ | ⟨b, hp, -⟩ | ⟨g, hp, -⟩ <;> rw [hp] at h ⊢ <;> cases h
    exact ⟨rfl, .inl rfl⟩
  | getsignal =>
    simp only [exec, execGetsignal] at h
    split at h
    · simp only [startSlot] at h
      rcases s.queue.pull_cases s.cfg.capacity with ⟨hp, -⟩ | ⟨b, hp, -⟩ | ⟨g, hp, -⟩ <;> rw [hp] at h ⊢ <;> cases h
      exact ⟨rfl, .inr rfl⟩
    · cases h

/-- An operation is refused only for its operands. -/
theorem exec_refused_cases {i : Instr} {s : State} {r : Refusal} (h : exec i s = .refused r) :
    ∃ n src, i = .setpayload n src ∧ setpayloadRefusal s.cfg n src = some r := by
  cases i with
  | reset => cases h
  | setpayload n src =>
    refine ⟨n, src, rfl, ?_⟩
    simp only [exec, execSetpayload] at h
    split at h
    · next hr => cases h; exact hr
    · split at h <;> cases h
  | getbyte =>
    simp only [exec, execGetbyte] at h
    rcases s.queue.pull_cases s.cfg.capacity with ⟨hp, -⟩ | ⟨b, hp, -⟩ | ⟨g, hp, -⟩ <;> rw [hp] at h <;> cases h
  | getsignal =>
    simp only [exec, execGetsignal] at h
    split at h
    · simp only [startSlot] at h
      rcases s.queue.pull_cases s.cfg.capacity with ⟨hp, -⟩ | ⟨b, hp, -⟩ | ⟨g, hp, -⟩ <;> rw [hp] at h <;> cases h
    · cases h

/-! ### Traces -/

@[simp] theorem trace_nil (s : State) : trace [] s = some ([], s) := rfl

theorem trace_cons_next {i : Instr} {ops : List Instr} {s t : State} (h : exec i s = .next t) :
    trace (i :: ops) s = (trace ops t).map (fun p => (t.resp :: p.1, p.2)) := by
  simp [trace, h]

/-- A trace that completes begins with an operation that completes. -/
theorem trace_cons_some {i : Instr} {ops : List Instr} {s u : State} {rs : List Response}
    (h : trace (i :: ops) s = some (rs, u)) :
    ∃ t rest, exec i s = .next t ∧ trace ops t = some (rest, u) ∧ rs = t.resp :: rest := by
  simp only [trace] at h
  split at h
  · next t ht =>
    obtain ⟨⟨rest, u'⟩, hp, he⟩ := Option.map_eq_some_iff.1 h
    obtain ⟨rfl, rfl⟩ := Prod.mk.inj he
    exact ⟨t, rest, ht, hp, rfl⟩
  · cases h
  · cases h

/-- Traces compose. -/
theorem trace_append {xs ys : List Instr} {s t u : State} {rs rs' : List Response}
    (hx : trace xs s = some (rs, t)) (hy : trace ys t = some (rs', u)) :
    trace (xs ++ ys) s = some (rs ++ rs', u) := by
  induction xs generalizing s rs with
  | nil =>
    obtain ⟨rfl, rfl⟩ := Prod.mk.inj (Option.some.inj hx)
    simpa using hy
  | cons i xs ih =>
    obtain ⟨v, rest, hv, hr, rfl⟩ := trace_cons_some hx
    rw [List.cons_append, trace_cons_next hv, ih hr]
    rfl

/-- A completed trace can be cut anywhere. -/
theorem trace_append_some {xs ys : List Instr} {s u : State} {rs : List Response}
    (h : trace (xs ++ ys) s = some (rs, u)) :
    ∃ t a b, trace xs s = some (a, t) ∧ trace ys t = some (b, u) ∧ rs = a ++ b := by
  induction xs generalizing s rs with
  | nil => exact ⟨s, [], rs, rfl, h, rfl⟩
  | cons i xs ih =>
    obtain ⟨v, rest, hv, hr, rfl⟩ := trace_cons_some h
    obtain ⟨t, a, b, ha, hb, rfl⟩ := ih hr
    exact ⟨t, v.resp :: a, b, by rw [trace_cons_next hv, ha]; rfl, hb, rfl⟩

/-- A completed trace answers once per operation. -/
theorem trace_length {ops : List Instr} {s t : State} {rs : List Response} (h : trace ops s = some (rs, t)) :
    rs.length = ops.length := by
  induction ops generalizing s rs with
  | nil => obtain ⟨rfl, -⟩ := Prod.mk.inj (Option.some.inj h); rfl
  | cons i ops ih =>
    obtain ⟨v, rest, -, hr, rfl⟩ := trace_cons_some h
    simp [ih hr]

theorem signals_append (xs ys : List Response) : signals (xs ++ ys) = signals xs ++ signals ys := by
  induction xs with
  | nil => rfl
  | cons r xs ih => cases r <;> simp [signals, ih]

/-! ### The step -/

@[simp] theorem Outcome.thenDo_next (s : State) (f : State → State) :
    Outcome.thenDo (.next s) f = .next (f s) := rfl

/-- A continuation is reached exactly through a next state. -/
theorem Outcome.thenDo_eq_next {o : Outcome} {f : State → State} {t : State} (h : Outcome.thenDo o f = .next t) :
    ∃ s, o = .next s ∧ t = f s := by
  cases o with
  | next s => exact ⟨s, rfl, (Host.Outcome.next.inj h).symm⟩
  | fault w => cases h
  | refused w => cases h

/-- A continuation adds no fault. -/
theorem Outcome.thenDo_eq_fault {o : Outcome} {f : State → State} {w : Fault} (h : Outcome.thenDo o f = .fault w) :
    o = .fault w := by
  cases o with
  | next s => cases h
  | fault v => cases h; rfl
  | refused v => cases h

/-- Everything the end of the task's work can do to the state. -/
theorem Work.reschedule_cases (w : Work) (s : State) :
    (∃ p, w.nextPeriod s.resp = some p ∧ w.reschedule s = s.withTask (s.env.task.schedule p)) ∨
    (w.nextPeriod s.resp = none ∧ w.reschedule s = s) := by
  unfold Work.reschedule
  split
  · next p h => exact .inl ⟨p, h, rfl⟩
  · next h => exact .inr ⟨h, rfl⟩

/-- Everything a step can do when it has a next state. -/
theorem step_next_cases {s t : State} (h : step s = .next t) :
    (s.inputs = [] ∧ t = s.quiet) ∨
    (∃ r rest, s.inputs = .request r :: rest ∧
      ((∃ i u, decode r = .instr i ∧ exec i { s with inputs := rest } = .next u ∧ t = u.driveLine) ∨
       (decode r = .idle ∧ t = State.quiet { s with inputs := rest }))) ∨
    (∃ p rest, s.inputs = .schedule p :: rest ∧
      t = State.quiet (State.withTask { s with inputs := rest } (s.env.task.schedule p))) ∨
    (∃ now w rest, s.inputs = .execute now w :: rest ∧
      ((s.env.task.due now = false ∧ t = State.quiet { s with inputs := rest }) ∨
       (s.env.task.due now = true ∧ ∃ u, t = w.reschedule u ∧
          exec (.setpayload w.n w.src) (State.withTask { s with inputs := rest } (s.env.task.started now)) = .next u))) := by
  simp only [step, stepInput] at h
  split at h
  · next hi => exact .inl ⟨hi, (Host.Outcome.next.inj h).symm⟩
  · next i rest hi =>
    cases i with
    | request r =>
      refine .inr (.inl ⟨r, rest, hi, ?_⟩)
      simp only [runInput, runRequest] at h
      split at h
      · next j hj =>
        obtain ⟨u, hu, rfl⟩ := Outcome.thenDo_eq_next h
        exact .inl ⟨j, u, hj, hu, rfl⟩
      · next hj => exact .inr ⟨hj, (Host.Outcome.next.inj h).symm⟩
      · cases h
    | schedule p => exact .inr (.inr (.inl ⟨p, rest, hi, (Host.Outcome.next.inj h).symm⟩))
    | execute now w =>
      refine .inr (.inr (.inr ⟨now, w, rest, hi, ?_⟩))
      simp only [runInput, runExecute] at h
      split at h
      · next hd =>
        obtain ⟨u, hu, rfl⟩ := Outcome.thenDo_eq_next h
        exact .inr ⟨hd, u, rfl, hu⟩
      · next hd => exact .inl ⟨by simpa using hd, (Host.Outcome.next.inj h).symm⟩

/-- A run of any machine goes on from the next state of its first step. -/
theorem run_succ (M : Host.Core) {k : Nat} {s t : M.State} (h : M.step s = .next t) : M.run (k + 1) s = M.run k t := by
  rw [Host.Core.run, h]

/-- The same for the machine behind the host's interface. -/
theorem core_run_succ {k : Nat} {s t : State} (h : step s = .next t) :
    Sys2Proof.core.run (k + 1) s = Sys2Proof.core.run k t :=
  run_succ Sys2Proof.core h

/-- A run of any machine that completes begins with a step that completes. -/
theorem run_succ_next (M : Host.Core) {k : Nat} {s u : M.State} (h : M.run (k + 1) s = .next u) :
    ∃ t, M.step s = .next t ∧ M.run k t = .next u := by
  rw [Host.Core.run] at h
  split at h
  · next t ht => exact ⟨t, ht, h⟩
  · cases h
  · cases h

/-- The same for the machine behind the host's interface. -/
theorem core_run_succ_next {k : Nat} {s u : State} (h : Sys2Proof.core.run (k + 1) s = .next u) :
    ∃ t, step s = .next t ∧ Sys2Proof.core.run k t = .next u :=
  run_succ_next Sys2Proof.core h

end Sys2Proof.Machine
end

