-- ==== Sys2Proof/Laws/PerInstr.lean ====
section
/-! SUPPORT. One fact about every operation as syntax, made per constructor. -/

namespace Sys2Proof.Laws.SelectedAlone

/-- The operation's own request vector selects it, and selects no operation of another row of the opcode map (R67). -/
def Statement (i : Instr) : Prop :=
  i.selectedBy i.opMatch = true ∧
    ∀ j : Instr, j.selectedBy i.opMatch = true → j.opMatch = i.opMatch

theorem reset : Statement .reset :=
  ⟨by decide, fun j h => by cases j <;> revert h <;> simp [Instr.selectedBy, Instr.opMask, Instr.opMatch]⟩

theorem setpayload (n : Nat) (src : List Byte) : Statement (.setpayload n src) :=
  ⟨by simp [Instr.selectedBy, Instr.opMask, Instr.opMatch],
   fun j h => by cases j <;> revert h <;> simp [Instr.selectedBy, Instr.opMask, Instr.opMatch]⟩

theorem getbyte : Statement .getbyte :=
  ⟨by decide, fun j h => by cases j <;> revert h <;> simp [Instr.selectedBy, Instr.opMask, Instr.opMatch]⟩

theorem getsignal : Statement .getsignal :=
  ⟨by decide, fun j h => by cases j <;> revert h <;> simp [Instr.selectedBy, Instr.opMask, Instr.opMatch]⟩

end Sys2Proof.Laws.SelectedAlone
end

