-- ==== Sys2Proof/Tests/Slice0.lean ====
section
/-! SUPPORT. Tests with expected values from the spec's tables and vectors, and for every statement with hypotheses a state
and operands that meet them all. -/

namespace Sys2Proof.Tests

open Sys2Proof.Machine

/-! ### States -/

/-- An array of `capacity` cells, the first ones as given, the others 0. -/
def cells (capacity : Nat) (first : List Byte) : Memory := (List.range capacity).map (fun i => (i, first.getD i 0x00#8))

/-- A queue of two bytes, 0x48 and 0x49 ("HI", R73), the rest of the block as given; default instance. -/
def hi (readOffset : Nat) (currentByte : Byte) (bitOffset : Nat) : State :=
  { State.reset with
    queue := { bytes := cells 64 [0x48, 0x49], length := 2, readOffset := readOffset }
    seq   := { currentByte := currentByte, bitOffset := bitOffset } }

/-- The same state in another instance. -/
def inInstance (capacity frameSlots : Nat) (s : State) : State :=
  { s with cfg := { s.cfg with capacity := capacity, frameSlots := frameSlots } }

/-- The same state with inputs waiting. -/
def facing (inputs : List Input) (s : State) : State := { s with inputs := inputs }

/-- The same state with the producer's task as given. -/
def withTask (active : Bool) (last period : Nat) (s : State) : State :=
  s.withTask { active := active, lastRunTimestamp := last, period := period }

/-- The next state of an outcome. -/
def next? : Outcome → Option State
  | .next s    => some s
  | .fault _   => none
  | .refused _ => none

/-- The refusal of an outcome. -/
def refusal? : Outcome → Option Refusal
  | .next _    => none
  | .fault _   => none
  | .refused r => some r

/-- The fault of an outcome. -/
def fault? : Outcome → Option Fault
  | .next _    => none
  | .fault f   => some f
  | .refused _ => none

/-! ### WellFormed: one ill-formed term for each check (R62, R65) -/

theorem test_wf_refuses_wide_length :
    (Instr.setpayload 256 (List.replicate 64 0)).illFormed Config.default = some .lengthTooWide := by decide

theorem test_wf_refuses_short_source :
    (Instr.setpayload 3 [0x41, 0x42]).illFormed Config.default = some .sourceTooShort := by decide

theorem test_wf_accepts_largest_length :
    (Instr.setpayload 255 (List.replicate 64 0)).wf Config.default = true := by decide

/-! ### Decode: words written out from R67's table (bit 3 `rst`, bit 2 `set`, bit 1 `get`, bit 0 `tick`) -/

theorem test_decode_reset : decodeTableWord 8 0x8 = some .reset := by decide
theorem test_decode_reset_wins : decodeTableWord 8 0xD = some .reset := by decide
theorem test_decode_setpayload : decode ⟨0x4#4, 2, [0x48, 0x49]⟩ = .instr (.setpayload 2 [0x48, 0x49]) := by decide
theorem test_decode_setpayload_word : decodeTableWord 8 0x4 = some (.setpayload 0 []) := by decide
theorem test_decode_getbyte : decodeTableWord 8 0x2 = some .getbyte := by decide
theorem test_decode_getsignal : decodeTableWord 8 0x1 = some .getsignal := by decide
theorem test_decode_no_request : decode ⟨0x0#4, 2, [0x48, 0x49]⟩ = .idle := by decide
theorem test_decode_overlap : decode ⟨0x3#4, 0, []⟩ = .overlap 0x3#4 ∧ decode ⟨0x7#4, 0, []⟩ = .overlap 0x7#4 := by decide

/-! ### Operations: the tables V2 to V5 of 95_test_vectors.md -/

/-- V5, first row: `48 49`, 2/1, 0x48, slot 5. -/
theorem test_reset :
    (next? (exec .reset (hi 1 0x48#8 5))).map (fun t => (t.queue.length, t.queue.readOffset, t.seq.bitOffset, t.resp)) =
      some (0, 0, 0, .none) := by decide

/-- V3, row 2/2 `SETPAYLOAD(1, [4F])`: cell 1 still 49. -/
theorem test_setpayload_stale_cell :
    (next? (exec (.setpayload 1 [0x4F]) (hi 2 0 0))).map (fun t => (t.queue, t.resp)) =
      some ({ bytes := cells 64 [0x4F, 0x49], length := 1, readOffset := 0 }, .write .ok) := by decide

/-- V3, row CAPACITY 4, `SETPAYLOAD(6, [31 .. 36])`: four bytes stored, status OK. -/
theorem test_setpayload_truncates :
    (next? (exec (.setpayload 6 [0x31, 0x32, 0x33, 0x34, 0x35, 0x36])
        (State.resetWith { Config.default with capacity := 4 }))).map (fun t => (t.queue, t.resp)) =
      some ({ bytes := cells 4 [0x31, 0x32, 0x33, 0x34], length := 4, readOffset := 0 }, .write .ok) := by decide

/-- V4, row 2/1: (OK, 0x49), then 2/2. -/
theorem test_getbyte_last :
    (next? (exec .getbyte (hi 1 0 0))).map (fun t => (t.resp, t.queue.readOffset)) = some (.byte .ok 0x49#8, 2) := by decide

/-- V4, row `FF`, 1/0: all 8 bits are returned. -/
theorem test_getbyte_eight_bits :
    (next? (exec .getbyte { State.reset with queue := { bytes := cells 64 [0xFF], length := 1, readOffset := 0 } })).map
      (·.resp) = some (.byte .ok 0xFF#8) := by decide

/-- V2, row nine slots, slot 0, one unread 0x49. -/
theorem test_getsignal_pull :
    (next? (exec .getsignal (hi 1 0x48#8 0))).map (fun t => (t.resp, t.seq, t.queue.readOffset)) =
      some (.signal .ok false, { currentByte := 0x49#8, bitOffset := 1 }, 2) := by decide

/-- V2, rows nine slots, slot 4, and ten slots, slot 8. -/
theorem test_getsignal_later :
    (next? (exec .getsignal (hi 1 0x48#8 4))).map (fun t => (t.resp, t.seq.bitOffset)) = some (.signal .ok true, 5) ∧
    (next? (exec .getsignal (inInstance 64 10 (hi 1 0x48#8 8)))).map (fun t => (t.resp, t.seq.bitOffset)) =
      some (.signal .ok true, 9) := by decide

/-- V1, rows 0xAA and 0x24: the frames of nine and ten slots. -/
theorem test_frame :
    frame Config.default 0xAA#8 = [false, false, true, false, true, false, true, false, true] ∧
    frame { Config.default with frameSlots := 10 } 0x24#8 =
      [false, false, false, true, false, false, true, false, true, true] := by decide

/-- The model's own fault (log 3), in states no run reaches. -/
theorem test_faults :
    fault? (exec .getbyte { hi 2 0 0 with queue := { bytes := [], length := 3, readOffset := 2 } }) =
      some (.noSuchCell 2) ∧
    fault? (exec .getsignal { hi 2 0 0 with queue := { bytes := [(64, 0x00#8)], length := 70, readOffset := 64 } }) =
      some (.noSuchCell 64) := by decide

/-- After power-on the first and the last cell hold a byte and index CAPACITY is no cell (R27, R40); after a `RESET` too, and
its free bytes are new ones (R170). -/
theorem test_unspecified_cells :
    Memory.read State.reset.queue.bytes 63 = some (Config.freeByte 63) ∧ Memory.read State.reset.queue.bytes 64 = none ∧
    (next? (exec .reset State.reset)).map (fun t => Memory.read t.queue.bytes 0) = some (some (Config.freeByte 65)) ∧
    (next? (exec .reset State.reset)).map (·.seq.currentByte) = some (Config.freeByte 129) :=
  ⟨rfl, rfl, rfl, rfl⟩

/-! ### The step: V6, P4 and S6 -/

/-- V6, row `0101`; V3's last row through a step. -/
theorem test_step_refuses :
    refusal? (step (facing [.request ⟨0x5#4, 0, []⟩] State.reset)) = some (.overlappingRequest 0x5#4) ∧
    refusal? (step (facing [.request ⟨0x4#4, 3, [0x41, 0x42]⟩] State.reset)) = some .sourceTooShort := by decide

/-- P4: the line is unknown before the first OK tick, and a tick with OK applies the bit. -/
theorem test_step_line :
    (next? (step (facing [.request ⟨0x1#4, 0, []⟩] State.reset))).map (·.env.line) = some none ∧
    (next? (step (facing [.request ⟨0x1#4, 0, []⟩] (hi 0 0 0)))).map (·.env.line) = some (some false) := by decide

/-- S6, rows `execute(999)` and `execute(1000)` from (true, 0, 1000), the work re-scheduling itself with 1000. -/
theorem test_step_execute :
    (next? (step (facing [.execute 999 ⟨0, [], some 1000, none⟩] (withTask true 0 1000 State.reset)))).map (·.env.task) =
      some ⟨true, 0, 1000⟩ ∧
    (next? (step (facing [.execute 1000 ⟨0, [], some 1000, none⟩] (withTask true 0 1000 State.reset)))).map (·.env.task) =
      some ⟨true, 1000, 1000⟩ := by decide

/-- S6, row `execute(2000)`: the work does not re-schedule itself. -/
theorem test_step_execute_once :
    (next? (step (facing [.execute 2000 ⟨0, [], none, none⟩] (withTask true 1000 1000 State.reset)))).map (·.env.task) =
      some ⟨false, 2000, 1000⟩ := by decide

/-- Every row's word, placed for the next step after reset, runs. -/
theorem test_fetch_words :
    [0x8, 0x4, 0x2, 0x1].map (fun w => (next? (step (State.reset.withFetchWord 8 w))).isSome) = [true, true, true, true] := by
  decide

/-! ### Witnesses: the hypotheses of each statement, met together -/

theorem default_valid : Config.default.Valid := ⟨by decide, .inl rfl, by decide⟩

theorem ten_valid : { Config.default with frameSlots := 10 }.Valid := ⟨by decide, .inr rfl, by decide⟩

theorem hi_queue_inv (k : Nat) (h : k ≤ 2) : (hi k 0 0).queue.Inv Config.default where
  read_le := h
  length_le := by show 2 ≤ 64; omega
  bytes_wf := by show Memory.wf (cells 64 [0x48, 0x49]); decide
  bytes_lt := by show ∀ c ∈ cells 64 [0x48, 0x49], c.1 < 64; decide
  cells := by show ∀ i, i < 64 → (Memory.read (cells 64 [0x48, 0x49]) i).isSome; decide

theorem witness_inv (k : Nat) (h : k ≤ 2) (b : Byte) (j : Nat) (hj : j < 9) : (hi k b j).Inv :=
  ⟨default_valid, hi_queue_inv k h, hj⟩

theorem hi_holds : (hi 0 0 0).queue.Holds [0x48#8, 0x49#8] :=
  ⟨rfl, by decide, by show ∀ j (h : j < 2), Memory.read (cells 64 [0x48, 0x49]) (0 + j) = some [0x48#8, 0x49#8][j]; decide⟩

theorem witness_PowerOnMeetsInvariant : Config.default.Valid ∧ { Config.default with frameSlots := 10 }.Valid :=
  ⟨default_valid, ten_valid⟩

theorem witness_ResetRewindsAndWins :
    (Request.mk 0x8#4 0 []).req.getLsbD 3 = true ∧ (Request.mk 0xF#4 1 [0x41]).req.getLsbD 3 = true := by decide

theorem witness_FirstOperationsAfterReset :
    ∃ t, exec .reset (hi 1 0x48#8 5) = .next t ∧ (Instr.setpayload 64 (List.replicate 64 0)).wf t.cfg = true :=
  ⟨_, rfl, by decide⟩

theorem witness_NothingPersistsAcrossReset :
    (hi 1 0x48#8 5).cfg = State.reset.cfg ∧
      ∃ rs t, trace [.reset, .setpayload 1 [0x41], .getsignal, .getsignal] (hi 1 0x48#8 5) = some (rs, t) :=
  ⟨rfl, _, _, rfl⟩

/-- Two states alike that differ in `currentByte` at slot 0, in a cell beyond the message and in the draws. -/
theorem witness_UnspecifiedValuesUnobservable :
    (hi 1 0x48#8 0).Alike { hi 1 0xFF#8 0 with
      queue := { bytes := cells 64 [0x48, 0x49, 0xFF], length := 2, readOffset := 1 }
      draws := 7 } ∧
    (hi 1 0x48#8 0).queue.readOffset ≤ (hi 1 0x48#8 0).queue.length ∧
    (hi 1 0x48#8 0).queue.length ≤ (hi 1 0x48#8 0).cfg.capacity ∧
    ∃ rs t, trace [.getsignal, .getsignal, .getbyte] (hi 1 0x48#8 0) = some (rs, t) :=
  ⟨⟨rfl, rfl, rfl, rfl,
    by show ∀ i, i < 2 → Memory.read (cells 64 [0x48, 0x49]) i = Memory.read (cells 64 [0x48, 0x49, 0xFF]) i
       decide,
    fun h => absurd rfl h⟩, by decide, by decide, _, _, rfl⟩

theorem witness_SetpayloadStoresMessage :
    (Instr.setpayload 64 (List.replicate 64 0)).wf (hi 2 0 0).cfg = true ∧
    (hi 2 0 0).queue.readOffset = (hi 2 0 0).queue.length ∧
    (Instr.setpayload 0 []).wf (hi 1 0 0).cfg = true ∧ (hi 1 0 0).queue.readOffset ≠ (hi 1 0 0).queue.length := by decide

/-- A `src` one byte short at CAPACITY, and one just long enough; another `src` that agrees below min(n, CAPACITY). -/
theorem witness_SetpayloadOperandAssembly :
    255 < 2 ^ (hi 0 0 0).cfg.lenw ∧ (List.replicate 63 (0 : Byte)).length < min 255 (hi 0 0 0).cfg.capacity ∧
    min 255 (hi 0 0 0).cfg.capacity ≤ (List.replicate 64 (0 : Byte)).length ∧
    (List.replicate 65 (0 : Byte)).take (min 255 (hi 0 0 0).cfg.capacity) =
      (List.replicate 64 (0 : Byte)).take (min 255 (hi 0 0 0).cfg.capacity) := by decide

theorem witness_OversizedMessageTruncated :
    (Instr.setpayload 65 (List.replicate 65 0)).wf (hi 2 0 0).cfg = true ∧ (hi 2 0 0).cfg.capacity < 65 ∧
    (hi 2 0 0).queue.drained = true := by decide

/-- The last cell of the array, and a drained queue. -/
theorem witness_GetbyteReturnsNextByte :
    (let s := { hi 0 0 0 with queue := { bytes := cells 64 (List.replicate 64 0xFF), length := 64, readOffset := 63 } }
     s.queue.readOffset ≠ s.queue.length ∧ s.queue.readOffset < s.cfg.capacity ∧
     Memory.read s.queue.bytes s.queue.readOffset = some 0xFF#8) ∧
    (hi 2 0 0).queue.readOffset = (hi 2 0 0).queue.length := by decide

theorem witness_FinishedIsNotSticky :
    (Instr.setpayload 1 [0x4F]).wf (hi 2 0 0).cfg = true ∧ (hi 2 0 0).queue.drained = true ∧
    0 < min 1 (hi 2 0 0).cfg.capacity := by decide

theorem witness_StartSlotPullsByte :
    (hi 1 0 0).cfg.Valid ∧ (hi 1 0 0).seq.bitOffset = 0 ∧ (hi 1 0 0).queue.readOffset < (hi 1 0 0).queue.length ∧
    (hi 1 0 0).queue.readOffset < (hi 1 0 0).cfg.capacity ∧
    Memory.read (hi 1 0 0).queue.bytes (hi 1 0 0).queue.readOffset = some 0x49#8 :=
  ⟨default_valid, by decide⟩

theorem witness_StartSlotPullsByte_change :
    ∃ t, exec .getsignal (hi 1 0 0) = .next t ∧ t.seq.currentByte ≠ (hi 1 0 0).seq.currentByte :=
  ⟨_, rfl, by decide⟩

theorem witness_StartSlotPullsByte_later : (hi 1 0 8).seq.bitOffset ≠ 0 := by decide

theorem witness_StartSlotHoldsWhileDrained :
    (hi 2 0 0).cfg.Valid ∧ (hi 2 0 0).seq.bitOffset = 0 ∧ (hi 2 0 0).queue.readOffset = (hi 2 0 0).queue.length ∧
    (Instr.setpayload 1 [0x4F]).wf (hi 2 0 0).cfg = true ∧ 0 < min 1 (hi 2 0 0).cfg.capacity :=
  ⟨default_valid, by decide⟩

theorem witness_DataSlotsEmitBits :
    (hi 0 0x48#8 1).cfg.Valid ∧ 1 ≤ (hi 0 0x48#8 1).seq.bitOffset ∧ (hi 0 0x48#8 7).cfg.Valid ∧
    (hi 0 0x48#8 7).seq.bitOffset ≤ 7 :=
  ⟨default_valid, by decide, default_valid, by decide⟩

theorem witness_StopSlotsEmitOne :
    (hi 0 0 8).cfg.frameSlots = 9 ∧ (hi 0 0 8).seq.bitOffset = 8 ∧
    (inInstance 64 10 (hi 0 0 8)).cfg.frameSlots = 10 ∧ (inInstance 64 10 (hi 0 0 8)).seq.bitOffset = 8 ∧
    (inInstance 64 10 (hi 0 0 9)).seq.bitOffset = 9 := by decide

theorem witness_ForcedCursorReturnsToZero :
    (hi 0 0 9).cfg.Valid ∧ (hi 0 0 9).cfg.frameSlots ≤ (hi 0 0 9).seq.bitOffset ∧
    (inInstance 64 10 (hi 0 0 10)).cfg.Valid ∧
    (inInstance 64 10 (hi 0 0 10)).cfg.frameSlots ≤ (inInstance 64 10 (hi 0 0 10)).seq.bitOffset :=
  ⟨default_valid, by decide, ten_valid, by decide⟩

/-- One state for each clause: a tick with OK, a tick with FINISHED, `RESET`, another operation. -/
theorem witness_CursorTransitions :
    (hi 0 0 8).cfg.Valid ∧ (hi 0 0 8).seq.bitOffset < (hi 0 0 8).cfg.frameSlots ∧
    (∃ t, exec .getsignal (hi 0 0 8) = .next t) ∧ (∃ t, exec .getsignal (hi 2 0 0) = .next t) ∧
    (∃ t, exec .reset (hi 0 0 8) = .next t) ∧ (∃ t, exec .getbyte (hi 0 0 8) = .next t) :=
  ⟨default_valid, by decide, ⟨_, rfl⟩, ⟨_, rfl⟩, ⟨_, rfl⟩, ⟨_, rfl⟩⟩

/-- A frame finished to its last slot, with a write and a read between its ticks. -/
theorem witness_FrameAtomicity :
    let ops : List Instr := [.getsignal, .getbyte, .setpayload 1 [0x4F], .getsignal]
    (hi 1 0x48#8 7).cfg.Valid ∧ 1 ≤ (hi 1 0x48#8 7).seq.bitOffset ∧
    (hi 1 0x48#8 7).seq.bitOffset < (hi 1 0x48#8 7).cfg.frameSlots ∧
    (hi 1 0x48#8 7).seq.bitOffset + ops.count .getsignal ≤ (hi 1 0x48#8 7).cfg.frameSlots ∧ .reset ∉ ops ∧
    ∃ rs t, trace ops (hi 1 0x48#8 7) = some (rs, t) :=
  ⟨default_valid, by decide, by decide, by decide, by decide, _, _, rfl⟩

theorem witness_FrameDecodesToLowSevenBits : Config.default.Valid ∧ { Config.default with frameSlots := 10 }.Valid :=
  ⟨default_valid, ten_valid⟩

theorem witness_MessageTransmittedFrameByFrame :
    (hi 0 0 0).cfg.Valid ∧ (hi 0 0 0).seq.bitOffset = 0 ∧ (hi 0 0 0).queue.Holds [0x48#8, 0x49#8] ∧
    1 ≤ [0x48#8, 0x49#8].length ∧ (hi 0 0 0).queue.length ≤ (hi 0 0 0).cfg.capacity ∧
    ∃ rs t, trace (ticks 1) (hi 0 0 0) = some (rs, t) :=
  ⟨default_valid, rfl, hi_holds, by decide, by decide, _, _, rfl⟩

theorem witness_MessageBoundaries :
    (hi 1 0 0).cfg.Valid ∧ (hi 1 0 0).seq.bitOffset = 0 ∧ (Instr.setpayload 1 [0x4F]).wf (hi 1 0 0).cfg = true ∧
    0 < min 1 (hi 1 0 0).cfg.capacity ∧ (hi 1 0 0).queue.readOffset + 1 = (hi 1 0 0).queue.length ∧
    (∃ t, exec .getsignal (hi 1 0 0) = .next t) ∧ (hi 2 0 0).queue.drained = true :=
  ⟨default_valid, rfl, by decide, by decide, rfl, ⟨_, rfl⟩, by decide⟩

/-- Two unread bytes, and one. -/
theorem witness_DirectReadStealsByte :
    (hi 0 0 0).cfg.Valid ∧ (hi 0 0 0).seq.bitOffset = 0 ∧ (hi 0 0 0).queue.Holds (0x48#8 :: [0x49#8]) ∧
    (hi 0 0 0).queue.length ≤ (hi 0 0 0).cfg.capacity ∧ (hi 1 0 0).queue.Holds (0x49#8 :: []) :=
  ⟨default_valid, rfl, hi_holds, by decide, rfl, by decide,
    by show ∀ j (h : j < 1), Memory.read (cells 64 [0x48, 0x49]) (1 + j) = some [0x49#8][j]; decide⟩

theorem witness_TicksDrainTheQueue : (hi 0 0x48#8 8).Inv ∧ (Instr.setpayload 1 [0x4F]).wf (hi 0 0x48#8 8).cfg = true :=
  ⟨witness_inv 0 (by decide) _ _ (by decide), by decide⟩

theorem witness_RetriedSendIsAdmitted : (hi 0 0x48#8 8).Inv ∧ (send [0x4F, 0x4B]).wf (hi 0 0x48#8 8).cfg = true :=
  ⟨witness_inv 0 (by decide) _ _ (by decide), by decide⟩

theorem witness_PayloadRoundTrip :
    (Instr.setpayload 65 (List.replicate 64 0)).wf (hi 2 0 0).cfg = true ∧ (hi 2 0 0).queue.drained = true := by decide

/-- A first message of one byte, and one of none. -/
theorem witness_SecondWriteIsBusy :
    (Instr.setpayload 1 [0x48]).wf (hi 2 0 0).cfg = true ∧ (Instr.setpayload 2 [0x4F, 0x4B]).wf (hi 2 0 0).cfg = true ∧
    (hi 2 0 0).queue.drained = true ∧ 0 < min 1 (hi 2 0 0).cfg.capacity ∧
    (Instr.setpayload 0 []).wf (hi 2 0 0).cfg = true ∧ min 0 (hi 2 0 0).cfg.capacity = 0 := by decide

theorem witness_QueueBoundsPreserved :
    (hi 1 0 0).queue.readOffset ≤ (hi 1 0 0).queue.length ∧ (hi 1 0 0).queue.length ≤ (hi 1 0 0).cfg.capacity ∧
    ∃ t, exec .getbyte (hi 1 0 0) = .next t :=
  ⟨by decide, by decide, _, rfl⟩

theorem witness_ValuesFitTheirRegisters : (hi 2 0 8).Inv ∧ (hi 2 0 8).cfg.capacity < 2 ^ 7 :=
  ⟨witness_inv 2 (by decide) _ _ (by decide), by decide⟩

/-- One completed operation of each kind: `StatusTable`, `NonOkChangesNothing` and `AgentsTouchOnlyTheirState`. -/
theorem witness_completed_operations :
    (∃ t, exec .reset (hi 0 0 0) = .next t) ∧ (∃ t, exec (.setpayload 1 [0x4F]) (hi 2 0 0) = .next t) ∧
    (∃ t, exec (.setpayload 1 [0x4F]) (hi 1 0 0) = .next t ∧ t.resp.status = some .busy) ∧
    (∃ t, exec .getbyte (hi 0 0 0) = .next t) ∧ (∃ t, exec .getbyte (hi 2 0 0) = .next t ∧ t.resp.status = some .finished) ∧
    (∃ t, exec .getsignal (hi 0 0 0) = .next t) ∧
    (∃ t, exec .getsignal (hi 2 0 0) = .next t ∧ t.resp.status = some .finished) :=
  ⟨⟨_, rfl⟩, ⟨_, rfl⟩, ⟨_, rfl, rfl⟩, ⟨_, rfl⟩, ⟨_, rfl, rfl⟩, ⟨_, rfl⟩, ⟨_, rfl, rfl⟩⟩

theorem witness_LegalOperationsComplete :
    (hi 1 0 0).Inv ∧ Instr.getbyte.wf (hi 1 0 0).cfg = true ∧
    (Instr.setpayload 3 [0x41, 0x42]).wf (hi 1 0 0).cfg = false ∧ (Instr.setpayload 256 []).wf (hi 1 0 0).cfg = false :=
  ⟨witness_inv 1 (by decide) _ _ (by decide), by decide⟩

theorem witness_OpcodeMap : 8 ≤ (0x8#4).toNat ∧ 8 ≤ (0xF#4).toNat := by decide

theorem witness_DecodeAndEncodeAgree :
    decode ⟨0xA#4, 1, [0x41]⟩ = .instr .reset ∧ decode ⟨0x4#4, 1, [0x41]⟩ = .instr (.setpayload 1 [0x41]) ∧
    decode ⟨0x2#4, 1, [0x41]⟩ = .instr .getbyte := by decide

theorem witness_StepRunsDecodedOperation :
    (facing [.request ⟨0x2#4, 0, []⟩] (hi 0 0 0)).inputs = .request ⟨0x2#4, 0, []⟩ :: [] ∧
    decode ⟨0x2#4, 0, []⟩ = .instr .getbyte ∧ decodeTableWord 8 0x1 = some .getsignal := by decide

theorem witness_IdleAndOverlappingRequests :
    State.reset.inputs = [] ∧
    (facing [.request ⟨0x0#4, 0, []⟩] (hi 0 0 0)).inputs = .request ⟨0x0#4, 0, []⟩ :: [] ∧
    (Request.mk 0x0#4 0 []).req = 0b0000#4 ∧
    (Request.mk 0x7#4 0 []).req ∈ [0b0011#4, 0b0101#4, 0b0110#4, 0b0111#4] := by decide

/-- A state that meets the invariant and has a step: `StepKeepsInvariant`, `StepNeverFaults`, `StepKeepsInstance`. -/
theorem witness_step_from_invariant :
    (facing [.request ⟨0x2#4, 0, []⟩] (hi 1 0 0)).Inv ∧
    ∃ t, step (facing [.request ⟨0x2#4, 0, []⟩] (hi 1 0 0)) = .next t :=
  ⟨⟨default_valid, hi_queue_inv 1 (by decide), by decide⟩, _, rfl⟩

/-- A step whose tick answers OK, and one whose tick answers FINISHED; the same two ticks as operations of the request. -/
theorem witness_LineFollowsOkTicks :
    (∃ t, step (facing [.request ⟨0x1#4, 0, []⟩] (hi 1 0 0)) = .next t ∧ t.resp = .signal .ok false) ∧
    (∃ t, step (facing [.request ⟨0x1#4, 0, []⟩] (hi 2 0 0)) = .next t ∧ ∀ b, t.resp ≠ .signal .ok b) ∧
    decode ⟨0x1#4, 0, []⟩ = .instr .getsignal ∧
    (∃ u, exec .getsignal (facing [] (hi 1 0 0)) = .next u ∧ u.resp = .signal .ok false) ∧
    (∃ u, exec .getsignal (facing [] (hi 2 0 0)) = .next u ∧ ∀ b, u.resp ≠ .signal .ok b) :=
  ⟨⟨_, rfl, rfl⟩, ⟨_, rfl, fun b h => by cases h⟩, rfl, ⟨_, rfl, rfl⟩, ⟨_, rfl, fun b h => by cases h⟩⟩

theorem witness_LineHighBetweenMessages :
    let s := facing (List.replicate 3 (.request (encode .getsignal))) (hi 2 0x49#8 8)
    s.cfg.Valid ∧ s.seq.bitOffset + 1 = s.cfg.frameSlots ∧ s.queue.drained = true ∧
    s.inputs = List.replicate (2 + 1) (.request (encode .getsignal)) ++ [] :=
  ⟨default_valid, by decide, by decide, by decide⟩

theorem witness_ScheduleMarksTaskActive :
    (facing [.schedule 1000] State.reset).inputs = .schedule 1000 :: [] := by decide

/-- S6 at the threshold: 999 of 1000 elapsed, then 1000 of 1000; the inactive task. -/
theorem witness_ExecuteRunsDueTask :
    (facing [.execute 999 ⟨0, [], none, none⟩] (withTask true 0 1000 State.reset)).inputs =
      .execute 999 ⟨0, [], none, none⟩ :: [] ∧
    999 - (withTask true 0 1000 State.reset).env.task.lastRunTimestamp <
      (withTask true 0 1000 State.reset).env.task.period ∧
    State.reset.env.task.active = false ∧
    (withTask true 0 1000 State.reset).env.task.active = true ∧
    (withTask true 0 1000 State.reset).env.task.period ≤
      1000 - (withTask true 0 1000 State.reset).env.task.lastRunTimestamp ∧
    ∃ u, exec (.setpayload 0 []) (withTask true 0 1000 State.reset) = .next u :=
  ⟨by decide, by decide, by decide, by decide, by decide, _, rfl⟩

/-- A due task with a period for the status it gets, OK or BUSY. -/
theorem witness_TaskReschedulesByStatus :
    (withTask true 0 1000 (hi 1 0 0)).env.task.due 1000 = true ∧ (withTask true 0 1000 (hi 2 0 0)).env.task.due 1000 = true ∧
    (∃ t, step (facing [.execute 1000 ⟨1, [0x4F], some 60000, some 50⟩] (withTask true 0 1000 (hi 2 0 0))) = .next t ∧
      t.resp = .write .ok) ∧
    (∃ t, step (facing [.execute 1000 ⟨1, [0x4F], some 60000, some 50⟩] (withTask true 0 1000 (hi 1 0 0))) = .next t ∧
      t.resp = .write .busy) :=
  ⟨by decide, by decide, ⟨_, rfl, rfl⟩, ⟨_, rfl, rfl⟩⟩

/-- A due task with a period for the other status only; one tick later it is polled again. -/
theorem witness_TaskReschedulesByStatus_stops :
    (∃ t u, step (facing [.execute 1000 ⟨1, [0x4F], none, some 50⟩, .request ⟨0x1#4, 0, []⟩, .execute 9999 ⟨0, [], none, none⟩]
        (withTask true 0 1000 (hi 2 0 0))) = .next t ∧ t.resp = .write .ok ∧ (∀ p, .schedule p ∉ t.inputs.take 1) ∧
      Sys2Proof.core.run 1 t = .next u ∧ u.inputs = .execute 9999 ⟨0, [], none, none⟩ :: []) ∧
    (∃ t, step (facing [.execute 1000 ⟨1, [0x4F], some 60000, none⟩] (withTask true 0 1000 (hi 1 0 0))) = .next t ∧
      t.resp = .write .busy) :=
  ⟨⟨_, _, rfl, rfl, fun p h => by change Input.schedule p ∈ [Input.request _] at h; simp at h, rfl, rfl⟩, ⟨_, rfl, rfl⟩⟩

end Sys2Proof.Tests
end

/-! Proofs about the scope (spec/00_scope.md): what no operation and no step changes. -/

namespace Sys2Proof.Machine

/-- The frame of every operation (R6, R33): instance, environment and waiting inputs are not its to change. -/
theorem exec_sameOutside {i : Instr} {s t : State} (h : exec i s = .next t) : s.SameOutside t := by
  rcases exec_next_cases h with ⟨-, rfl⟩ | ⟨_, _, -, -, ⟨-, rfl⟩ | ⟨-, rfl⟩⟩ | ⟨-, -, rfl⟩ | ⟨_, -, -, -, -, rfl⟩ |
    ⟨-, -, -, rfl⟩ | ⟨_, -, -, -, -, -, rfl⟩ | ⟨-, -, rfl⟩
  all_goals exact ⟨rfl, rfl, rfl⟩

theorem exec_cfg {i : Instr} {s t : State} (h : exec i s = .next t) : t.cfg = s.cfg :=
  (exec_sameOutside h).1

@[simp] theorem Work.reschedule_cfg (w : Work) (s : State) : (w.reschedule s).cfg = s.cfg := by
  rcases w.reschedule_cases s with ⟨p, -, hr⟩ | ⟨-, hr⟩
  · rw [hr, State.withTask_cfg]
  · rw [hr]

/-- Settles O41: an operation keeps the instance (`exec_cfg`), and so does everything the driver and the scheduler do
around it. -/
theorem stepKeepsInstance : Obligations.StepKeepsInstance := by
  intro s t h
  rcases step_next_cases h with ⟨-, rfl⟩ | ⟨r, rest, -, ⟨i, u, -, hu, rfl⟩ | ⟨-, rfl⟩⟩ | ⟨p, rest, -, rfl⟩ |
    ⟨now, w, rest, -, ⟨-, rfl⟩ | ⟨-, u, rfl, hu⟩⟩
  case inr.inl.inl => -- a request's operation, then the driver
    rw [State.driveLine_cfg, exec_cfg hu]
  case inr.inr.inr.inr => -- the work of a due task: its `SETPAYLOAD`, then the re-schedule
    rw [Work.reschedule_cfg, exec_cfg hu, State.withTask_cfg]
  all_goals rfl -- no operation is performed

end Sys2Proof.Machine

/-! Proofs about the state (spec/10_state.md): the invariant of reachable states, the widths of the registers, and the
state each agent may change. -/

namespace Sys2Proof

/-- CW bits hold CAPACITY (R6). -/
theorem Config.capacity_lt_two_pow_cw (c : Config) : c.capacity < 2 ^ c.cw := Nat.lt_log2_self

/-- No width below CW holds CAPACITY (R6). -/
theorem Config.cw_le_of_capacity_lt {c : Config} (hpos : 1 ≤ c.capacity) {w : Nat} (h : c.capacity < 2 ^ w) : c.cw ≤ w :=
  (Nat.log2_lt (Nat.ne_of_gt hpos)).2 h

theorem Config.Valid.slots_le {c : Config} (h : c.Valid) : c.frameSlots ≤ 10 := by
  rcases h.slots with h | h <;> omega

theorem Config.Valid.slots_pos {c : Config} (h : c.Valid) : 0 < c.frameSlots :=
  Nat.lt_of_lt_of_le (by decide) h.slots_ge

theorem Config.default_valid : Config.default.Valid := ⟨by decide, .inl rfl, by decide⟩

end Sys2Proof

namespace Sys2Proof.Machine

/-! ### The invariant -/

/-- The invariant reads only the instance and the block. -/
theorem State.Inv.of_sameBlock {s t : State} (hs : s.Inv) (hcfg : t.cfg = s.cfg) (hblock : s.SameBlock t) : t.Inv := by
  obtain ⟨hqueue, hseq⟩ := hblock
  constructor
  · rw [hcfg]; exact hs.cfg_valid
  · rw [hcfg, hqueue]; exact hs.queue_inv
  · rw [hcfg, hseq]; exact hs.cursor_lt

/-- The driver is outside the block (R121). -/
theorem State.driveLine_sameBlock (s : State) : s.SameBlock s.driveLine := ⟨s.driveLine_queue, s.driveLine_seq⟩

/-- So is the end of the task's work (R129). -/
theorem Work.reschedule_sameBlock (w : Work) (s : State) : s.SameBlock (w.reschedule s) := by
  rcases w.reschedule_cases s with ⟨p, -, hr⟩ | ⟨-, hr⟩
  all_goals rw [hr]; exact ⟨rfl, rfl⟩

/-- R24, R26, R87: every operation keeps the invariant. -/
theorem exec_keeps_inv {i : Instr} {s t : State} (h : exec i s = .next t) (hs : s.Inv) : t.Inv := by
  obtain ⟨hcfg, hqueue, hcursor⟩ := hs
  rcases exec_next_cases h with ⟨-, rfl⟩ | ⟨n, src, -, -, ⟨-, rfl⟩ | ⟨-, rfl⟩⟩ | ⟨-, -, rfl⟩ | ⟨b, -, hd, -, -, rfl⟩ |
    ⟨-, -, -, rfl⟩ | ⟨b, -, -, hd, -, -, rfl⟩ | ⟨-, -, rfl⟩
  · -- `RESET`
    exact ⟨hcfg, Queue.cleared_inv _ _, hcfg.slots_pos⟩
  · -- `SETPAYLOAD` answers OK
    exact ⟨hcfg, Queue.store_inv hqueue (storedMessage_length_le _ _ _), hcursor⟩
  · -- `SETPAYLOAD` answers BUSY
    exact ⟨hcfg, hqueue, hcursor⟩
  · -- `GETBYTE` answers FINISHED
    exact ⟨hcfg, hqueue, hcursor⟩
  · -- `GETBYTE` answers OK
    exact ⟨hcfg, Queue.advance_inv hqueue hd, hcursor⟩
  · -- `GETSIGNAL` answers FINISHED
    exact ⟨hcfg, hqueue, hcursor⟩
  · -- `GETSIGNAL` pulls a byte at slot 0
    exact ⟨hcfg, Queue.advance_inv hqueue hd, nextSlot_lt hcfg.slots_pos⟩
  · -- `GETSIGNAL` at a later slot
    exact ⟨hcfg, hqueue, nextSlot_lt hcfg.slots_pos⟩

/-- Settles O39: the operation of a step keeps the invariant (`exec_keeps_inv`), and what the input, the driver and the
scheduler change around it is outside the instance and the block. -/
theorem stepKeepsInvariant : Obligations.StepKeepsInvariant := by
  intro s t hs h
  rcases step_next_cases h with ⟨-, rfl⟩ | ⟨r, rest, -, ⟨i, u, -, hu, rfl⟩ | ⟨-, rfl⟩⟩ | ⟨p, rest, -, rfl⟩ |
    ⟨now, w, rest, -, ⟨-, rfl⟩ | ⟨-, u, rfl, hu⟩⟩
  case inr.inl.inl => -- a request's operation, then the driver
    have hu_inv : u.Inv := exec_keeps_inv hu (hs.of_sameBlock rfl ⟨rfl, rfl⟩)
    exact hu_inv.of_sameBlock u.driveLine_cfg u.driveLine_sameBlock
  case inr.inr.inr.inr => -- the work of a due task: its `SETPAYLOAD`, then the re-schedule
    have hu_inv : u.Inv := exec_keeps_inv hu (hs.of_sameBlock rfl ⟨rfl, rfl⟩)
    exact hu_inv.of_sameBlock (w.reschedule_cfg u) (w.reschedule_sameBlock u)
  all_goals exact hs.of_sameBlock rfl ⟨rfl, rfl⟩ -- no operation is performed

/-- R24, R26, R27: at power-on the queue is that of a reset, and the cursor is 0. -/
theorem State.resetWith_inv {c : Config} (hc : c.Valid) : (State.resetWith c).Inv where
  cfg_valid := hc
  queue_inv := Queue.cleared_inv c 0
  cursor_lt := hc.slots_pos

/-- Settles O2: the default instance is one of those in R6's ranges. -/
theorem powerOnMeetsInvariant : Obligations.PowerOnMeetsInvariant :=
  ⟨fun _ hc => ⟨State.resetWith_inv hc, rfl⟩, State.resetWith_inv Config.default_valid⟩

/-! ### The registers -/

/-- Settles O28: the invariant bounds `readOffset` and `length` by CAPACITY, which CW bits hold, and `bitOffset` by
FRAME_SLOTS, at most 10. -/
theorem valuesFitTheirRegisters : Obligations.ValuesFitTheirRegisters := by
  intro s hs
  obtain ⟨hcfg, hqueue, hcursor⟩ := hs
  have hlength : s.queue.length < 2 ^ s.cfg.cw := Nat.lt_of_le_of_lt hqueue.length_le s.cfg.capacity_lt_two_pow_cw
  have hread : s.queue.readOffset < 2 ^ s.cfg.cw := Nat.lt_of_le_of_lt hqueue.read_le hlength
  have hslots : s.seq.bitOffset < 2 ^ 4 := by have := hcfg.slots_le; omega
  exact ⟨hlength, hread, hslots, fun _ hw => Config.cw_le_of_capacity_lt hcfg.capacity_pos hw⟩

/-! ### The agents -/

/-- Settles O32, one bullet for each thing an operation can do. -/
theorem agentsTouchOnlyTheirState : Obligations.AgentsTouchOnlyTheirState := by
  intro i s t h
  rcases exec_next_cases h with ⟨rfl, rfl⟩ | ⟨n, src, rfl, -, ⟨-, rfl⟩ | ⟨-, rfl⟩⟩ | ⟨rfl, -, rfl⟩ |
    ⟨b, rfl, -, -, -, rfl⟩ | ⟨rfl, -, -, rfl⟩ | ⟨b, rfl, -, -, -, -, rfl⟩ | ⟨rfl, -, rfl⟩
  · -- `RESET` is the platform's
    exact ⟨nofun, nofun, nofun⟩
  · -- `SETPAYLOAD` answers OK: the queue alone changes
    exact ⟨fun _ => rfl, nofun, nofun⟩
  · -- `SETPAYLOAD` answers BUSY
    exact ⟨fun _ => rfl, nofun, nofun⟩
  · -- `GETBYTE` answers FINISHED
    exact ⟨nofun, fun _ => ⟨rfl, rfl, .inl rfl⟩, fun _ => rfl⟩
  · -- `GETBYTE` answers OK: `readOffset` alone changes
    exact ⟨nofun, fun _ => ⟨rfl, rfl, .inr rfl⟩, fun _ => rfl⟩
  · -- `GETSIGNAL` answers FINISHED
    exact ⟨nofun, fun _ => ⟨rfl, rfl, .inl rfl⟩, nofun⟩
  · -- `GETSIGNAL` pulls a byte at slot 0
    exact ⟨nofun, fun _ => ⟨rfl, rfl, .inr rfl⟩, nofun⟩
  · -- `GETSIGNAL` at a later slot: the queue is not touched
    exact ⟨nofun, fun _ => ⟨rfl, rfl, .inl rfl⟩, nofun⟩

end Sys2Proof.Machine

/-! Proofs about the encoding (spec/30_encoding.md): the opcode map and its decoder, the status codes, the operands of
`SETPAYLOAD`, a forced cursor, and the step that samples a request. -/

namespace Sys2Proof

/-! ### The opcode map -/

/-- `rst` alone selects `RESET`: its other bits are don't-care bits (R67). -/
@[simp] theorem Instr.reset_selectedBy_iff {v : BitVec 4} : Instr.reset.selectedBy v = true ↔ v.getLsbD 3 = true := by
  revert v; decide

/-- No other row of the map has don't-care bits (R67). -/
@[simp] theorem Instr.selectedBy_iff_of_ne_reset {i : Instr} {v : BitVec 4} (hi : i ≠ .reset) :
    i.selectedBy v = true ↔ v = i.opMatch := by
  have hmask : i.opMask = BitVec.allOnes 4 := by
    cases i with
    | reset => exact absurd rfl hi
    | setpayload n src => rfl
    | getbyte => rfl
    | getsignal => rfl
  rw [Instr.selectedBy, hmask, BitVec.and_allOnes, beq_iff_eq]

/-- The vectors with `rst` are those of 8 or more. -/
theorem getLsbD_three_iff_le_toNat {v : BitVec 4} : v.getLsbD 3 = true ↔ 8 ≤ v.toNat := by
  revert v; decide

/-! ### The decoder -/

/-- `RESET` wins over every other line (R67). -/
theorem decode_of_rst {r : Request} (h : r.req.getLsbD 3 = true) : decode r = .instr .reset := by
  rw [decode, if_pos (Instr.reset_selectedBy_iff.2 h)]

theorem decode_setpayload (n : Nat) (src : List Byte) : decode ⟨0b0100#4, n, src⟩ = .instr (.setpayload n src) := by
  simp [decode, Instr.opMatch]

theorem decode_getbyte (n : Nat) (src : List Byte) : decode ⟨0b0010#4, n, src⟩ = .instr .getbyte := by
  simp [decode, Instr.opMatch]

theorem decode_getsignal (n : Nat) (src : List Byte) : decode ⟨0b0001#4, n, src⟩ = .instr .getsignal := by
  simp [decode, Instr.opMatch]

theorem decode_of_req_zero {r : Request} (h : r.req = 0b0000#4) : decode r = .idle := by
  simp [decode, Instr.opMatch, h]

/-- Two or three of `set`, `get`, `tick` without `rst` overlap (R68). -/
theorem decode_of_overlapping {r : Request} (h : r.req ∈ [0b0011#4, 0b0101#4, 0b0110#4, 0b0111#4]) :
    decode r = .overlap r.req := by
  obtain ⟨v, n, src⟩ := r
  simp only [List.mem_cons, List.not_mem_nil, or_false] at h
  rcases h with rfl | rfl | rfl | rfl <;> simp [decode, Instr.opMatch]

/-- A request that decodes to an operation is selected by its row of the map, and the operands of `SETPAYLOAD` are the
request's (R62, R67). -/
theorem decode_eq_instr_cases {r : Request} {i : Instr} (h : decode r = .instr i) :
    i.selectedBy r.req = true ∧
      (i = .reset ∨ i = .setpayload r.n r.src ∨ i = .getbyte ∨ i = .getsignal) := by
  unfold decode at h
  split at h
  · next hsel => cases h; exact ⟨hsel, .inl rfl⟩
  · split at h
    · next hsel => cases h; exact ⟨hsel, .inr (.inl rfl)⟩
    · split at h
      · next hsel => cases h; exact ⟨hsel, .inr (.inr (.inl rfl))⟩
      · split at h
        · next hsel => cases h; exact ⟨hsel, .inr (.inr (.inr rfl))⟩
        · split at h <;> cases h

/-- The encoding of an operation decodes to it. -/
theorem decode_encode (i : Instr) : decode (encode i) = .instr i := by
  cases i with
  | reset => exact decode_of_rst rfl
  | setpayload n src => exact decode_setpayload n src
  | getbyte => exact decode_getbyte 0 []
  | getsignal => exact decode_getsignal 0 []

/-- The vector of an operation's encoding is its row's `match` (R67). -/
@[simp] theorem encode_req (i : Instr) : (encode i).req = i.opMatch := by cases i <;> rfl

/-- A request with operands that decodes to an operation is that operation's encoding. -/
theorem encode_setpayload_of_selectedBy {r : Request} (h : (Instr.setpayload r.n r.src).selectedBy r.req = true) :
    encode (.setpayload r.n r.src) = r := by
  have hreq : r.req = (Instr.setpayload r.n r.src).opMatch := by simpa using h
  rw [encode, ← hreq]

/-- Settles O36: one direction is `decode_encode`; in the other, the row that selected the operation gives its vector
(`decode_eq_instr_cases`), up to the don't-care bits of `RESET`. -/
theorem decodeAndEncodeAgree : Obligations.DecodeAndEncodeAgree := by
  refine ⟨decode_encode, fun r i h => ?_⟩
  obtain ⟨hsel, hi⟩ := decode_eq_instr_cases h
  have hreq (hne : i ≠ .reset) : (encode i).req = r.req := by
    rw [encode_req, (Instr.selectedBy_iff_of_ne_reset hne).1 hsel]
  rcases hi with rfl | rfl | rfl | rfl
  · exact .inl ⟨rfl, Instr.reset_selectedBy_iff.1 hsel⟩
  · exact .inr ⟨hreq nofun, fun _ => encode_setpayload_of_selectedBy hsel⟩
  · exact .inr ⟨hreq nofun, nofun⟩
  · exact .inr ⟨hreq nofun, nofun⟩

/-- Settles O34, row by row of the map. -/
theorem opcodeMap : Obligations.OpcodeMap := fun n src =>
  ⟨fun _ hv => decode_of_rst (getLsbD_three_iff_le_toNat.2 hv), decode_setpayload n src, decode_getbyte n src,
    decode_getsignal n src, decode_of_req_zero rfl, fun _ hv => decode_of_overlapping hv⟩

/-! ### Table words -/

/-- A table word holds an operation exactly when its request decodes to one. -/
theorem decodeTableWord_eq_some_iff {nbits w : Nat} {i : Instr} :
    decodeTableWord nbits w = some i ↔ decode (requestOfWord nbits w) = .instr i := by
  unfold decodeTableWord
  split <;> simp [*]

/-- Settles O35: each word's request is a row of the opcode map with the operands zero and empty. -/
theorem tableWordsDecode : Obligations.TableWordsDecode :=
  ⟨decodeTableWord_eq_some_iff.2 (decode_of_rst (by decide)), decodeTableWord_eq_some_iff.2 (decode_of_rst (by decide)),
    decodeTableWord_eq_some_iff.2 (decode_setpayload 0 []), decodeTableWord_eq_some_iff.2 (decode_getbyte 0 []),
    decodeTableWord_eq_some_iff.2 (decode_getsignal 0 []), by decide, by decide⟩

/-! ### The status codes -/

/-- The status that a code at the port stands for (R64). -/
def Status.ofCode (c : BitVec 2) : Status :=
  if c = 0b00#2 then .ok else if c = 0b01#2 then .finished else if c = 0b10#2 then .busy else .error

/-- The status is read back from its code (R64). -/
theorem Status.ofCode_code : Function.LeftInverse Status.ofCode Status.code := fun st => by cases st <;> rfl

/-- Settles O30: no two statuses share a code, since the status is read back from it. -/
theorem statusCodes : Obligations.StatusCodes :=
  ⟨rfl, rfl, rfl, rfl, Status.ofCode_code.injective⟩

end Sys2Proof

namespace Sys2Proof.Machine

/-! ### The operands of `SETPAYLOAD` -/

/-- R65: a `src` too short for the length it is to supply is refused, whatever the queue's state. -/
theorem exec_setpayload_short {n : Nat} {src : List Byte} {s : State} (hn : n < 2 ^ s.cfg.lenw)
    (hs : src.length < min n s.cfg.capacity) : exec (.setpayload n src) s = .refused .sourceTooShort := by
  have hr : setpayloadRefusal s.cfg n src = some .sourceTooShort := by
    rw [setpayloadRefusal, if_neg (Nat.not_le.2 hn), storedLength, if_pos hs]
  rw [exec, execSetpayload, hr]

/-- R81: undrained, a well-formed `SETPAYLOAD` answers BUSY. -/
theorem exec_setpayload_busy {n : Nat} {src : List Byte} {s : State} (h : (Instr.setpayload n src).wf s.cfg = true)
    (hd : s.queue.readOffset ≠ s.queue.length) : exec (.setpayload n src) s = .next (s.answer (.write .busy)) := by
  rw [exec, execSetpayload, (setpayloadRefusal_none_iff _ _ _).2 h]
  simp [hd]

/-- R80: drained, a well-formed `SETPAYLOAD` stores its message and answers OK. -/
theorem exec_setpayload_ok {n : Nat} {src : List Byte} {s : State} (h : (Instr.setpayload n src).wf s.cfg = true)
    (hd : s.queue.readOffset = s.queue.length) :
    exec (.setpayload n src) s =
      .next { s with queue := s.queue.store (storedMessage s.cfg n src), resp := .write .ok } := by
  rw [exec, execSetpayload, (setpayloadRefusal_none_iff _ _ _).2 h]
  simp [hd]

/-- A well-formed `SETPAYLOAD` reads no more of its `src` than the stored message. -/
theorem exec_setpayload_congr {n : Nat} {src src' : List Byte} {s : State}
    (h : (Instr.setpayload n src).wf s.cfg = true) (h' : (Instr.setpayload n src').wf s.cfg = true)
    (hmsg : storedMessage s.cfg n src' = storedMessage s.cfg n src) :
    exec (.setpayload n src') s = exec (.setpayload n src) s := by
  by_cases hd : s.queue.readOffset = s.queue.length
  · rw [exec_setpayload_ok h hd, exec_setpayload_ok h' hd, hmsg]
  · rw [exec_setpayload_busy h hd, exec_setpayload_busy h' hd]

/-- Settles O8: a short `src` is refused; a long enough one makes a well-formed request, which stores its message on a
drained queue and is BUSY on another, and reads nothing of `src` beyond the message. -/
theorem setpayloadOperandAssembly : Obligations.SetpayloadOperandAssembly := by
  intro n src s hn
  refine ⟨exec_setpayload_short hn, fun hlen => ?_⟩
  have hwf : (Instr.setpayload n src).wf s.cfg = true := (setpayload_wf_iff _ _ _).2 ⟨hn, hlen⟩
  refine ⟨?_, fun src' htake => ?_⟩
  · by_cases hd : s.queue.readOffset = s.queue.length
    · exact ⟨_, exec_setpayload_ok hwf hd, fun _ => storedMessage_length hwf⟩
    · exact ⟨_, exec_setpayload_busy hwf hd, nofun⟩
  · have hlen' : min n s.cfg.capacity ≤ src'.length := by
      have := congrArg List.length htake
      simp only [List.length_take] at this
      omega
    exact exec_setpayload_congr hwf ((setpayload_wf_iff _ _ _).2 ⟨hn, hlen'⟩) htake

/-! ### A forced cursor -/

/-- At every slot but 0, `GETSIGNAL` emits the slot's bit and moves the cursor (R103, R104, R71). -/
theorem exec_getsignal_later {s : State} (h : s.seq.bitOffset ≠ 0) :
    exec .getsignal s =
      .next { s with
        seq  := { s.seq with bitOffset := nextSlot s.cfg s.seq.bitOffset }
        resp := .signal .ok (frameBit s.seq.currentByte s.seq.bitOffset) } := by
  rw [exec, execGetsignal, if_neg h, laterSlot]

/-- Settles O16: a cursor of FRAME_SLOTS or more is past the data slots, so it emits a stop bit, and past the last slot, so
it wraps. -/
theorem forcedCursorReturnsToZero : Obligations.ForcedCursorReturnsToZero := by
  intro s hcfg hforced
  have hstop : 8 ≤ s.seq.bitOffset := by have := hcfg.slots_ge; omega
  rw [exec_getsignal_later (by omega), nextSlot_wrap (by omega), frameBit_stop hstop]

/-! ### The step that samples a request -/

/-- With no input waiting the step only clears the outputs (log 9). -/
theorem step_no_input {s : State} (h : s.inputs = []) : step s = .next s.quiet := by
  rw [step, stepInput, h]

/-- The step takes the oldest request and runs it (R62). -/
theorem step_request {s : State} {r : Request} {rest : List Input} (h : s.inputs = .request r :: rest) :
    step s = runRequest r { s with inputs := rest } := by
  simp only [step, stepInput, h, runInput]

theorem runRequest_instr {r : Request} {i : Instr} {s : State} (h : decode r = .instr i) :
    runRequest r s = Outcome.thenDo (exec i s) State.driveLine := by
  rw [runRequest, h]

theorem runRequest_idle {r : Request} {s : State} (h : decode r = .idle) : runRequest r s = .next s.quiet := by
  rw [runRequest, h]

theorem runRequest_overlap {r : Request} {v : BitVec 4} {s : State} (h : decode r = .overlap v) :
    runRequest r s = .refused (.overlappingRequest v) := by
  rw [runRequest, h]

/-- The step after a table word is placed runs the word's request on the state it was placed in. -/
theorem step_withFetchWord (s : State) (nbits w : Nat) :
    step (s.withFetchWord nbits w) = runRequest (requestOfWord nbits w) s :=
  step_request (s.withFetchWord_inputs nbits w)

/-- Settles O37: the step runs the request (`step_request`, `step_withFetchWord`), and the request its operation. -/
theorem stepRunsDecodedOperation : Obligations.StepRunsDecodedOperation := by
  refine ⟨fun s r rest i hin hdec => ?_, fun s nbits w i hword => ?_⟩
  · rw [step_request hin, runRequest_instr hdec]
  · rw [step_withFetchWord, runRequest_instr (decodeTableWord_eq_some_iff.1 hword)]

/-- Settles O38: the idle vector and the overlapping ones select no operation. -/
theorem idleAndOverlappingRequests : Obligations.IdleAndOverlappingRequests := by
  refine fun s => ⟨step_no_input, fun r rest hin => ⟨fun hzero => ?_, fun hover => ?_⟩⟩
  · rw [step_request hin, runRequest_idle (decode_of_req_zero hzero)]; rfl
  · rw [step_request hin, runRequest_overlap (decode_of_overlapping hover)]

end Sys2Proof.Machine

/-! Proofs about the queue's operations (spec/40_queue_ops.md): what `SETPAYLOAD` stores, what `GETBYTE` reads back, and the
laws of the two together. -/

namespace Sys2Proof.Machine

/-! ### `GETBYTE` -/

/-- R85: undrained, `GETBYTE` answers OK with the next unread byte. -/
theorem exec_getbyte_ok {s : State} {b : Byte} (hd : s.queue.readOffset ≠ s.queue.length)
    (hc : s.queue.readOffset < s.cfg.capacity) (hb : Memory.read s.queue.bytes s.queue.readOffset = some b) :
    exec .getbyte s =
      .next { s with queue := { s.queue with readOffset := s.queue.readOffset + 1 }, resp := .byte .ok b } := by
  rw [exec, execGetbyte, Queue.pull_byte hd hc hb]

/-- R86: drained, `GETBYTE` answers FINISHED. -/
theorem exec_getbyte_finished {s : State} (hd : s.queue.readOffset = s.queue.length) :
    exec .getbyte s = .next s.finishedByte := by
  rw [exec, execGetbyte, Queue.pull_drained hd]

/-- Settles O10: one part for each answer of `GETBYTE`. -/
theorem getbyteReturnsNextByte : Obligations.GetbyteReturnsNextByte := fun _ =>
  ⟨fun _ => exec_getbyte_ok, fun hd => ⟨_, _, exec_getbyte_finished hd, rfl, ⟨rfl, rfl⟩, rfl, rfl, rfl⟩⟩

/-- R86: reads of a drained queue all answer FINISHED and leave the block as it is. -/
theorem trace_getbyte_drained (k : Nat) {s : State} (hd : s.queue.readOffset = s.queue.length) :
    ∃ ds u, trace (List.replicate k .getbyte) s = some (ds, u) ∧ (∀ r ∈ ds, r.status = some .finished) ∧
      s.SameBlock u ∧ u.cfg = s.cfg := by
  induction k generalizing s with
  | zero => exact ⟨[], s, rfl, nofun, ⟨rfl, rfl⟩, rfl⟩
  | succ k ih =>
    obtain ⟨ds, u, htrace, hstatus, hblock, hcfg⟩ := ih (s := s.finishedByte) hd
    refine ⟨s.finishedByte.resp :: ds, u, ?_, List.forall_mem_cons.2 ⟨rfl, hstatus⟩, hblock, hcfg⟩
    rw [List.replicate_succ, trace_cons_next (exec_getbyte_finished hd), htrace]
    rfl

/-! ### The unread bytes -/

/-- The message an admitted `SETPAYLOAD` stored is unread (R80). -/
theorem Queue.store_holds (q : Queue) (msg : List Byte) : (q.store msg).Holds msg :=
  ⟨rfl, Nat.zero_le _, Memory.read_writeFrom_inside msg q.bytes 0⟩

/-- A queue is drained exactly when no byte of it is unread (R29). -/
theorem Queue.Holds.readOffset_eq_length_iff {q : Queue} {msg : List Byte} (h : q.Holds msg) :
    q.readOffset = q.length ↔ msg.length = 0 := by
  obtain ⟨hlength, hle, -⟩ := h
  omega

/-- A queue with an unread byte is not drained (R29). -/
theorem Queue.Holds.readOffset_lt {q : Queue} {b : Byte} {msg : List Byte} (h : q.Holds (b :: msg)) :
    q.readOffset < q.length := by
  obtain ⟨hlength, -, -⟩ := h
  simp only [List.length_cons] at hlength
  omega

/-- The oldest unread byte is in the cell at `readOffset` (R85). -/
theorem Queue.Holds.read_head {q : Queue} {b : Byte} {msg : List Byte} (h : q.Holds (b :: msg)) :
    Memory.read q.bytes q.readOffset = some b := by
  obtain ⟨-, -, hcells⟩ := h
  exact hcells 0 (Nat.succ_pos _)

/-- Advancing `readOffset` leaves the bytes after the oldest unread (R85). -/
theorem Queue.Holds.advance {q : Queue} {b : Byte} {msg : List Byte} (h : q.Holds (b :: msg)) :
    ({ q with readOffset := q.readOffset + 1 } : Queue).Holds msg := by
  have hlt : q.readOffset < q.length := h.readOffset_lt
  obtain ⟨hlength, -, hcells⟩ := h
  simp only [List.length_cons] at hlength
  refine ⟨by show msg.length = q.length - (q.readOffset + 1); omega, hlt, fun j hj => ?_⟩
  have hcell := hcells (j + 1) (Nat.succ_lt_succ hj)
  rwa [show q.readOffset + (j + 1) = q.readOffset + 1 + j by omega] at hcell

/-- A read of a queue with an unread byte answers that byte (R85); R24's bound on `length` says that its cell exists. -/
theorem Queue.Holds.exec_getbyte {s : State} {b : Byte} {msg : List Byte} (h : s.queue.Holds (b :: msg))
    (hcap : s.queue.length ≤ s.cfg.capacity) :
    exec .getbyte s =
      .next { s with queue := { s.queue with readOffset := s.queue.readOffset + 1 }, resp := .byte .ok b } :=
  exec_getbyte_ok (Nat.ne_of_lt h.readOffset_lt) (Nat.lt_of_lt_of_le h.readOffset_lt hcap) h.read_head

/-- `DRAIN` (R74) answers the unread bytes in order and then FINISHED; it touches only the queue. -/
theorem Queue.Holds.trace_drain {msg : List Byte} {s : State} (h : s.queue.Holds msg)
    (hcap : s.queue.length ≤ s.cfg.capacity) :
    ∃ d t, trace (drain msg.length) s = some (msg.map (fun b => .byte .ok b) ++ [.byte .finished d], t) ∧
      t.queue.drained = true ∧ t.seq = s.seq ∧ s.SameOutside t := by
  induction msg generalizing s with
  | nil =>
    have hd : s.queue.readOffset = s.queue.length := h.readOffset_eq_length_iff.2 rfl
    exact ⟨_, s.finishedByte, trace_cons_next (exec_getbyte_finished hd), (Queue.drained_iff _).2 hd, rfl, rfl, rfl, rfl⟩
  | cons b msg ih =>
    obtain ⟨d, t, htrace, hdrained, hseq, houtside⟩ :=
      ih (s := { s with queue := { s.queue with readOffset := s.queue.readOffset + 1 }, resp := .byte .ok b })
        h.advance hcap
    refine ⟨d, t, ?_, hdrained, hseq, houtside⟩
    rw [drain, List.length_cons, List.replicate_succ, trace_cons_next (h.exec_getbyte hcap), ← drain, htrace]
    rfl

/-! ### `SETPAYLOAD` -/

/-- Cell i of a stored message is `src[i]` (R80, R83). -/
theorem Queue.read_store_inside (q : Queue) (c : Config) {n i : Nat} {src : List Byte} (h : i < src.length)
    (hi : i < min n c.capacity) : Memory.read (q.store (storedMessage c n src)).bytes i = some src[i] := by
  have hmsg : i < (storedMessage c n src).length := by
    simp only [storedMessage, storedLength, List.length_take]
    omega
  calc Memory.read (q.store (storedMessage c n src)).bytes i
      = Memory.read (q.store (storedMessage c n src)).bytes (0 + i) := by rw [Nat.zero_add]
    _ = some (storedMessage c n src)[i] := Memory.read_writeFrom_inside _ _ 0 i hmsg
    _ = some src[i] := congrArg some List.getElem_take

/-- Settles O7: drained, the message is stored (`exec_setpayload_ok`), and the copy loop writes its cells and no other;
undrained, the answer is BUSY. -/
theorem setpayloadStoresMessage : Obligations.SetpayloadStoresMessage := by
  intro n src s hwf
  have hlength : (storedMessage s.cfg n src).length = min n s.cfg.capacity := storedMessage_length hwf
  refine ⟨fun hd => ⟨_, exec_setpayload_ok hwf hd, hlength, rfl, ?_, ?_, ?_⟩, exec_setpayload_busy hwf⟩
  · -- the cells of the message
    exact fun i h hi => s.queue.read_store_inside s.cfg h hi
  · -- every other cell
    intro i hi
    refine Memory.read_writeFrom_outside _ _ _ _ (.inr ?_)
    rwa [hlength, Nat.zero_add]
  · -- drained exactly when no byte was stored
    rw [Queue.drained_iff, Queue.store_readOffset, Queue.store_length, hlength]
    exact eq_comm

/-- R80, R82: drained, a well-formed `SETPAYLOAD` answers OK and leaves the queue holding its message unread, within the
array; it touches nothing else. -/
theorem exec_setpayload_holds {n : Nat} {src : List Byte} {s : State} (h : (Instr.setpayload n src).wf s.cfg = true)
    (hd : s.queue.readOffset = s.queue.length) :
    ∃ t, exec (.setpayload n src) s = .next t ∧ t.resp = .write .ok ∧ t.queue.Holds (storedMessage s.cfg n src) ∧
      t.queue.length ≤ t.cfg.capacity ∧ t.seq = s.seq ∧ s.SameOutside t :=
  ⟨_, exec_setpayload_ok h hd, rfl, s.queue.store_holds _, storedMessage_length_le s.cfg n src, rfl, rfl, rfl, rfl⟩

/-- Two well-formed `SETPAYLOAD`s that store the same message have the same effect. -/
theorem exec_setpayload_eq_of_storedMessage_eq {n m : Nat} {src src' : List Byte} {s : State}
    (h : (Instr.setpayload n src).wf s.cfg = true) (h' : (Instr.setpayload m src').wf s.cfg = true)
    (hmsg : storedMessage s.cfg n src = storedMessage s.cfg m src') :
    exec (.setpayload n src) s = exec (.setpayload m src') s := by
  by_cases hd : s.queue.readOffset = s.queue.length
  · rw [exec_setpayload_ok h hd, exec_setpayload_ok h' hd, hmsg]
  · rw [exec_setpayload_busy h hd, exec_setpayload_busy h' hd]

/-- R82: what is stored of an oversized message is its first CAPACITY bytes. -/
theorem storedMessage_oversized {c : Config} {n : Nat} (src : List Byte) (h : c.capacity < n) :
    storedMessage c n src = src.take c.capacity := by
  rw [storedMessage, storedLength, Nat.min_eq_right (Nat.le_of_lt h)]

/-- Settles O9: the request for CAPACITY bytes is well-formed too, and it stores the same message. -/
theorem oversizedMessageTruncated : Obligations.OversizedMessageTruncated := by
  intro n src s hwf hover
  obtain ⟨hn, hsrc⟩ := (setpayload_wf_iff _ _ _).1 hwf
  have hmin : min n s.cfg.capacity = s.cfg.capacity := Nat.min_eq_right (Nat.le_of_lt hover)
  rw [hmin] at hsrc
  have hwf' : (Instr.setpayload s.cfg.capacity (src.take s.cfg.capacity)).wf s.cfg = true := by
    refine (setpayload_wf_iff _ _ _).2 ⟨Nat.lt_trans hover hn, ?_⟩
    rw [List.length_take]
    omega
  refine ⟨exec_setpayload_eq_of_storedMessage_eq hwf hwf' ?_, fun hd => ?_⟩
  · rw [storedMessage_oversized src hover, storedMessage, storedLength, Nat.min_self, List.take_take, Nat.min_self]
  · refine ⟨_, exec_setpayload_ok hwf ((Queue.drained_iff _).1 hd), rfl, (storedMessage_length hwf).trans hmin, ?_⟩
    exact fun i h hi => s.queue.read_store_inside s.cfg h (by rwa [hmin])

/-! ### The laws of the queue -/

/-- The first byte of a stored non-empty message is that of `src`. -/
theorem storedMessage_eq_head_cons {c : Config} {n : Nat} {src : List Byte}
    (h : (Instr.setpayload n src).wf c = true) (hpos : 0 < min n c.capacity) :
    ∃ rest, storedMessage c n src = src.headD 0 :: rest := by
  have hsrc : min n c.capacity ≤ src.length := ((setpayload_wf_iff _ _ _).1 h).2
  cases src with
  | nil => simp only [List.length_nil] at hsrc; omega
  | cons b src => exact ⟨src.take (min n c.capacity - 1), List.take_cons hpos⟩

/-- Settles O11: the FINISHED reads leave the queue drained (`trace_getbyte_drained`), so the message is admitted, and its
first byte is unread. -/
theorem finishedIsNotSticky : Obligations.FinishedIsNotSticky := by
  intro k n src s hwf hdrained hpos
  have hd : s.queue.readOffset = s.queue.length := (Queue.drained_iff _).1 hdrained
  obtain ⟨ds, u, hreads, hstatus, hblock, hcfg⟩ := trace_getbyte_drained k hd
  have hu : u.queue.readOffset = u.queue.length := by rw [hblock.1, hd]
  rw [← hcfg] at hwf hpos
  obtain ⟨t, hwrite, hresp, hholds, hcap, -⟩ := exec_setpayload_holds hwf hu
  obtain ⟨rest, hmsg⟩ := storedMessage_eq_head_cons hwf hpos
  rw [hmsg] at hholds
  obtain ⟨v, hread, hbyte⟩ : ∃ v, exec .getbyte t = .next v ∧ v.resp = .byte .ok (src.headD 0) :=
    ⟨_, hholds.exec_getbyte hcap, rfl⟩
  refine ⟨ds, u, v, hreads, hstatus, hblock, ?_⟩
  rw [trace_cons_next hwrite, trace_cons_next hread, hresp, hbyte]
  rfl

theorem State.SameOutside.trans {s t u : State} (hst : s.SameOutside t) (htu : t.SameOutside u) : s.SameOutside u := by
  obtain ⟨hcfg, henv, hinputs⟩ := hst
  obtain ⟨hcfg', henv', hinputs'⟩ := htu
  exact ⟨hcfg'.trans hcfg, henv'.trans henv, hinputs'.trans hinputs⟩

/-- Settles O25: the message is admitted (`exec_setpayload_holds`), and `DRAIN` recovers it (`Queue.Holds.trace_drain`). -/
theorem payloadRoundTrip : Obligations.PayloadRoundTrip := by
  intro n src s hwf hdrained
  obtain ⟨t, hwrite, hresp, hholds, hcap, hseq, houtside⟩ :=
    exec_setpayload_holds hwf ((Queue.drained_iff _).1 hdrained)
  obtain ⟨d, u, hdrain, hempty, hseq', houtside'⟩ := hholds.trace_drain hcap
  refine ⟨d, u, ?_, hempty, hseq'.trans hseq, houtside.trans houtside'⟩
  rw [storedMessage_length hwf] at hdrain
  rw [trace_cons_next hwrite, hdrain, hresp]
  rfl

/-- Settles O26: the queue holds the first message when the second write comes, so it is drained exactly when that message
is empty; BUSY leaves it as it is, to be drained. -/
theorem secondWriteIsBusy : Obligations.SecondWriteIsBusy := by
  intro n m src src' s hwf hwf' hdrained
  obtain ⟨t, hwrite, hresp, hholds, hcap, -, hcfg, -⟩ :=
    exec_setpayload_holds hwf ((Queue.drained_iff _).1 hdrained)
  have ht : t.queue.readOffset = t.queue.length ↔ min n s.cfg.capacity = 0 := by
    rw [hholds.readOffset_eq_length_iff, storedMessage_length hwf]
  rw [← hcfg] at hwf'
  refine ⟨fun hpos => ?_, fun hzero => ?_⟩
  · -- the first stored a byte: the second is BUSY
    have hbusy := exec_setpayload_busy hwf' (fun hd => Nat.ne_of_gt hpos (ht.1 hd))
    obtain ⟨d, u, hdrain, -⟩ := Queue.Holds.trace_drain (s := t.answer (.write .busy)) hholds hcap
    rw [storedMessage_length hwf] at hdrain
    refine ⟨d, u, ?_⟩
    rw [trace_cons_next hwrite, trace_cons_next hbusy, hdrain, hresp]
    rfl
  · -- the first stored none: the second is admitted
    obtain ⟨u, hwrite', hresp', -⟩ := exec_setpayload_holds hwf' (ht.2 hzero)
    refine ⟨u, ?_⟩
    rw [trace_cons_next hwrite, trace_cons_next hwrite', hresp, hresp']
    rfl

/-- Settles O27, one bullet for each thing an operation can do. -/
theorem queueBoundsPreserved : Obligations.QueueBoundsPreserved := by
  intro i s t hread hlength h
  rcases exec_next_cases h with ⟨-, rfl⟩ | ⟨n, src, -, -, ⟨-, rfl⟩ | ⟨-, rfl⟩⟩ | ⟨-, -, rfl⟩ | ⟨b, -, hd, -, -, rfl⟩ |
    ⟨-, -, -, rfl⟩ | ⟨b, -, -, hd, -, -, rfl⟩ | ⟨-, -, rfl⟩
  · -- `RESET`
    exact ⟨Nat.le_refl 0, Nat.zero_le _⟩
  · -- `SETPAYLOAD` answers OK
    exact ⟨Nat.zero_le _, storedMessage_length_le _ _ _⟩
  · -- `SETPAYLOAD` answers BUSY
    exact ⟨hread, hlength⟩
  · -- `GETBYTE` answers FINISHED
    exact ⟨hread, hlength⟩
  · -- `GETBYTE` answers OK: undrained, so `readOffset` was below `length`
    exact ⟨Nat.lt_of_le_of_ne hread hd, hlength⟩
  · -- `GETSIGNAL` answers FINISHED
    exact ⟨hread, hlength⟩
  · -- `GETSIGNAL` pulls a byte at slot 0
    exact ⟨Nat.lt_of_le_of_ne hread hd, hlength⟩
  · -- `GETSIGNAL` at a later slot
    exact ⟨hread, hlength⟩

end Sys2Proof.Machine

/-! Proofs about the framer's operation (spec/41_framer_ops.md): the frame of a byte, one tick at each slot, ticks on a
drained queue, the frame under way, and the transmission of a message. -/

namespace Sys2Proof.Machine

/-! ### Traces -/

theorem signals_cons (r : Response) (rs : List Response) : signals (r :: rs) = signals [r] ++ signals rs :=
  signals_append [r] rs

theorem trace_cfg {ops : List Instr} {s t : State} {rs : List Response} (h : trace ops s = some (rs, t)) :
    t.cfg = s.cfg := by
  induction ops generalizing s rs with
  | nil => obtain ⟨-, rfl⟩ := Prod.mk.inj (Option.some.inj h); rfl
  | cons i ops ih =>
    obtain ⟨v, rest, hv, hrest, -⟩ := trace_cons_some h
    rw [ih hrest, exec_cfg hv]

theorem ticks_add (j k : Nat) : ticks (j + k) = ticks j ++ ticks k := List.replicate_append_replicate.symm

theorem trace_ticks_succ {k : Nat} {s t u : State} {rs : List Response} (h : exec .getsignal s = .next t)
    (hrest : trace (ticks k) t = some (rs, u)) : trace (ticks (k + 1)) s = some (t.resp :: rs, u) := by
  rw [ticks, List.replicate_succ, trace_cons_next h, ← ticks, hrest]
  rfl

/-! ### The frame of a byte -/

theorem frame_getElem?_eq_some {c : Config} {k : Nat} (b : Byte) (h : k < c.frameSlots) :
    (frame c b)[k]? = some (frameBit b k) := by
  rw [List.getElem?_eq_getElem (by rwa [frame_length]), frame_getElem]

/-- A number modulo 2^n is read from its n low bits. -/
theorem foldl_bits_eq_mod {g : Nat → Bool} {x n : Nat} (h : ∀ j, j < n → g j = x.testBit j) :
    (List.range n).foldl (fun acc j => acc + 2 ^ j * (g j).toNat) 0 = x % 2 ^ n := by
  induction n with
  | zero => rw [Nat.pow_zero, Nat.mod_one]; rfl
  | succ n ih =>
    rw [List.range_succ, List.foldl_append, ih fun j hj => h j (Nat.lt_succ_of_lt hj), List.foldl_cons, List.foldl_nil,
      h n (Nat.lt_succ_self n), Nat.toNat_testBit, Nat.mod_pow_succ]

/-- R108: the data bits of a frame read back the low 7 bits of its byte. -/
theorem decodedFrame_frame {c : Config} (hc : c.Valid) (b : Byte) : decodedFrame (frame c b) = b.toNat % 128 := by
  refine foldl_bits_eq_mod (n := 7) fun j hj => ?_
  have hslots := hc.slots_ge
  rw [List.getD_eq_getElem?_getD, frame_getElem?_eq_some b (by omega), Option.getD_some,
    frameBit_data (by omega) (by omega), Nat.add_sub_cancel, BitVec.testBit_toNat]

/-- No slot emits bit 7 of the byte (R108). -/
theorem frameBit_congr {b b' : Byte} (h : b.toNat % 128 = b'.toNat % 128) (k : Nat) : frameBit b k = frameBit b' k := by
  rcases Nat.eq_zero_or_pos k with rfl | hpos
  · rfl
  rcases Nat.lt_or_ge 7 k with hstop | hdata
  · rw [frameBit_stop hstop, frameBit_stop hstop]
  · have hbit := congrArg (fun x => x.testBit (k - 1)) h
    simp only [show (128 : Nat) = 2 ^ 7 from rfl, Nat.testBit_mod_two_pow, BitVec.testBit_toNat,
      show k - 1 < 7 by omega, decide_true, Bool.true_and] at hbit
    rw [frameBit_data hpos hdata, frameBit_data hpos hdata, hbit]

/-- Settles O19: the slots' bits are `frameBit`'s, and the low 7 bits of the byte both are read from the frame
(`decodedFrame_frame`) and determine it (`frameBit_congr`). -/
theorem frameDecodesToLowSevenBits : Obligations.FrameDecodesToLowSevenBits := by
  intro c b b' hc
  have hslots := hc.slots_ge
  refine ⟨frame_length c b, ?_, ?_, ?_, decodedFrame_frame hc b, fun heq => ?_, fun hmod => ?_⟩
  · rw [frame_getElem?_eq_some b (by omega), frameBit_start]
  · rw [frame_getElem?_eq_some b (by omega), frameBit_stop (by omega)]
  · rw [frame_getElem?_eq_some b (by omega), frameBit_stop (by omega)]
  · rw [← decodedFrame_frame hc, heq, decodedFrame_frame hc]
  · exact List.map_congr_left fun k _ => frameBit_congr hmod k

/-! ### One tick -/

/-- The state after a tick at a later slot (R103, R104). -/
def State.ticked (s : State) : State :=
  { s with
    seq  := { s.seq with bitOffset := nextSlot s.cfg s.seq.bitOffset }
    resp := .signal .ok (frameBit s.seq.currentByte s.seq.bitOffset) }

/-- R102: at slot 0 with a drained queue, `GETSIGNAL` answers FINISHED. -/
theorem exec_getsignal_finished {s : State} (h0 : s.seq.bitOffset = 0) (hd : s.queue.readOffset = s.queue.length) :
    exec .getsignal s = .next s.finishedSignal := by
  rw [exec, execGetsignal, if_pos h0, startSlot, Queue.pull_drained hd]

/-- The state after the tick that pulls the byte `b` (R101). -/
def State.pulled (s : State) (b : Byte) : State :=
  { s with
    queue := { s.queue with readOffset := s.queue.readOffset + 1 }
    seq   := { currentByte := b, bitOffset := 1 }
    resp  := .signal .ok false }

/-- R101: at slot 0 with a byte to pull, `GETSIGNAL` latches it and emits the start bit. -/
theorem exec_getsignal_pull {s : State} {b : Byte} (hcfg : s.cfg.Valid) (h0 : s.seq.bitOffset = 0)
    (hd : s.queue.readOffset ≠ s.queue.length) (hc : s.queue.readOffset < s.cfg.capacity)
    (hb : Memory.read s.queue.bytes s.queue.readOffset = some b) :
    exec .getsignal s = .next (s.pulled b) := by
  have hnext : nextSlot s.cfg 0 = 1 := nextSlot_next (by have := hcfg.slots_ge; omega)
  rw [exec, execGetsignal, if_pos h0, startSlot, Queue.pull_byte hd hc hb]
  simp only [hnext, frameBit_start, State.pulled]

/-- At slot 0 with an unread byte a tick pulls it (R101); R24's bound on `length` says that its cell exists. -/
theorem Queue.Holds.exec_getsignal {s : State} {b : Byte} {msg : List Byte} (h : s.queue.Holds (b :: msg))
    (hcfg : s.cfg.Valid) (h0 : s.seq.bitOffset = 0) (hcap : s.queue.length ≤ s.cfg.capacity) :
    exec .getsignal s = .next (s.pulled b) :=
  exec_getsignal_pull hcfg h0 (Nat.ne_of_lt h.readOffset_lt) (Nat.lt_of_lt_of_le h.readOffset_lt hcap) h.read_head

/-- Everything a tick can do: FINISHED, the pull, a later slot (R101 to R104). -/
theorem exec_getsignal_cases {s t : State} (hcfg : s.cfg.Valid) (h : exec .getsignal s = .next t) :
    (s.seq.bitOffset = 0 ∧ s.queue.readOffset = s.queue.length ∧ t = s.finishedSignal) ∨
    (∃ b, s.seq.bitOffset = 0 ∧ s.queue.readOffset ≠ s.queue.length ∧ t = s.pulled b) ∨
    (s.seq.bitOffset ≠ 0 ∧ t = s.ticked) := by
  rcases exec_next_cases h with ⟨hi, -⟩ | ⟨_, _, hi, -⟩ | ⟨hi, -⟩ | ⟨_, hi, -⟩ | ⟨-, hfinished⟩ |
    ⟨b, -, h0, hd, hc, hb, -⟩ | ⟨-, hlater⟩
  case inr.inr.inr.inr.inl => exact .inl hfinished
  case inr.inr.inr.inr.inr.inl =>
    exact .inr (.inl ⟨b, h0, hd, Host.Outcome.next.inj (h.symm.trans (exec_getsignal_pull hcfg h0 hd hc hb))⟩)
  case inr.inr.inr.inr.inr.inr => exact .inr (.inr hlater)
  all_goals cases hi -- the other operations

/-- Settles O12: the pull is `exec_getsignal_pull`; of all an operation can do, `RESET` and the pull alone write
`currentByte`; a later slot does not read the queue (`exec_getsignal_later`). -/
theorem startSlotPullsByte : Obligations.StartSlotPullsByte := by
  refine ⟨fun s b hcfg h0 hlt hc hb => exec_getsignal_pull hcfg h0 (Nat.ne_of_lt hlt) hc hb, fun i s t h hne => ?_,
    fun s q h0 => ⟨_, _, exec_getsignal_later (s := { s with queue := q }) h0, exec_getsignal_later h0⟩⟩
  rcases exec_next_cases h with ⟨hi, -⟩ | ⟨_, _, -, -, ⟨-, rfl⟩ | ⟨-, rfl⟩⟩ | ⟨-, -, rfl⟩ | ⟨_, -, -, -, -, rfl⟩ |
    ⟨-, -, -, rfl⟩ | ⟨_, hi, h0, hd, -⟩ | ⟨-, -, rfl⟩
  case inl => exact .inl hi -- `RESET`
  case inr.inr.inr.inr.inr.inl => exact .inr ⟨hi, h0, hd⟩ -- the pull
  all_goals exact absurd rfl hne

/-- Settles O14: each data slot is a later slot, and not the last. -/
theorem dataSlotsEmitBits : Obligations.DataSlotsEmitBits := by
  intro s hcfg h1 h7
  have hslots := hcfg.slots_ge
  rw [exec_getsignal_later (by omega), nextSlot_next (by omega), frameBit_data h1 h7]

/-- R104: a stop slot emits 1. -/
theorem exec_getsignal_stop {s : State} (h : 8 ≤ s.seq.bitOffset) :
    exec .getsignal s =
      .next { s with seq := { s.seq with bitOffset := nextSlot s.cfg s.seq.bitOffset }, resp := .signal .ok true } := by
  rw [exec_getsignal_later (by omega), frameBit_stop h]

/-- Settles O15: the frame length says which stop slot is the last. -/
theorem stopSlotsEmitOne : Obligations.StopSlotsEmitOne := by
  refine fun s => ⟨fun hslots hk => ?_, fun hslots hk => ?_, fun hslots hk => ?_⟩
  · rw [exec_getsignal_stop (by omega), nextSlot_wrap (by omega)]
  · rw [exec_getsignal_stop (by omega), nextSlot_next (by omega), hk]
  · rw [exec_getsignal_stop (by omega), nextSlot_wrap (by omega)]

/-- The operations of the queue leave the sequencer as it is and answer no bit (R105). -/
theorem exec_queue_op {i : Instr} {s t : State} (hi : i ≠ .getsignal) (hr : i ≠ .reset) (h : exec i s = .next t) :
    t.seq = s.seq ∧ signals [t.resp] = [] := by
  rcases exec_next_cases h with ⟨hreset, -⟩ | ⟨_, _, -, -, ⟨-, rfl⟩ | ⟨-, rfl⟩⟩ | ⟨-, -, rfl⟩ | ⟨_, -, -, -, -, rfl⟩ |
    ⟨htick, -⟩ | ⟨_, htick, -⟩ | ⟨htick, -⟩
  case inl => exact absurd hreset hr
  case inr.inr.inr.inr.inl | inr.inr.inr.inr.inr.inl | inr.inr.inr.inr.inr.inr => exact absurd htick hi
  all_goals exact ⟨rfl, rfl⟩

/-- Settles O17: a tick answers FINISHED at slot 0 or moves the cursor to the next slot (`nextSlot_eq_mod`). -/
theorem cursorTransitions : Obligations.CursorTransitions := by
  intro i s t hcfg hlt h
  refine ⟨?_, ?_, fun hi hr => ?_⟩
  · rintro rfl
    rcases exec_getsignal_cases hcfg h with ⟨h0, hd, rfl⟩ | ⟨b, h0, -, rfl⟩ | ⟨-, rfl⟩
    · exact ⟨_, _, rfl, .inr ⟨rfl, h0, hd, h0⟩⟩
    · have hslots := hcfg.slots_ge
      exact ⟨_, _, rfl, .inl ⟨rfl, by rw [h0, Nat.mod_eq_of_lt (by omega)]; rfl⟩⟩
    · exact ⟨_, _, rfl, .inl ⟨rfl, nextSlot_eq_mod hlt⟩⟩
  · rintro rfl
    rw [← Host.Outcome.next.inj h, State.cleared_seq, Sequencer.cleared_bitOffset]
  · obtain ⟨hseq, -⟩ := exec_queue_op hi hr h
    rw [hseq]

/-! ### Ticks on a drained queue -/

/-- R102: at slot 0 with a drained queue every tick answers FINISHED and leaves the block as it is. -/
theorem trace_ticks_drained (k : Nat) {s : State} (h0 : s.seq.bitOffset = 0)
    (hd : s.queue.readOffset = s.queue.length) :
    ∃ rs t, trace (ticks k) s = some (rs, t) ∧ (∀ r ∈ rs, ∃ d, r = .signal .finished d) ∧ s.SameBlock t ∧
      s.SameOutside t := by
  induction k generalizing s with
  | zero => exact ⟨[], s, rfl, nofun, ⟨rfl, rfl⟩, rfl, rfl, rfl⟩
  | succ k ih =>
    obtain ⟨rs, t, htrace, hresp, hblock, houtside⟩ := ih (s := s.finishedSignal) h0 hd
    exact ⟨_, t, trace_ticks_succ (exec_getsignal_finished h0 hd) htrace, List.forall_mem_cons.2 ⟨⟨_, rfl⟩, hresp⟩,
      hblock, houtside⟩

/-- The same, said of the statuses alone. -/
theorem trace_ticks_drained_status (k : Nat) {s : State} (h0 : s.seq.bitOffset = 0)
    (hd : s.queue.readOffset = s.queue.length) :
    ∃ rs t, trace (ticks k) s = some (rs, t) ∧ (∀ r ∈ rs, r.status = some .finished) ∧ s.SameBlock t := by
  obtain ⟨rs, t, htrace, hresp, hblock, -⟩ := trace_ticks_drained k h0 hd
  refine ⟨rs, t, htrace, fun r hr => ?_, hblock⟩
  obtain ⟨d, rfl⟩ := hresp r hr
  rfl

/-- R102, R111: at slot 0 with a drained queue, the tick after a non-empty message is admitted pulls its first byte. -/
theorem trace_setpayload_getsignal {n : Nat} {src : List Byte} {s : State} (hcfg : s.cfg.Valid)
    (h0 : s.seq.bitOffset = 0) (hd : s.queue.readOffset = s.queue.length)
    (hwf : (Instr.setpayload n src).wf s.cfg = true) (hpos : 0 < min n s.cfg.capacity) :
    ∃ u, trace [.setpayload n src, .getsignal] s = some ([.write .ok, .signal .ok false], u) ∧
      u.seq = { currentByte := src.headD 0, bitOffset := 1 } := by
  obtain ⟨t, hwrite, hresp, hholds, hcap, hseq, hcfg', -⟩ := exec_setpayload_holds hwf hd
  obtain ⟨rest, hmsg⟩ := storedMessage_eq_head_cons hwf hpos
  rw [hmsg] at hholds
  rw [← hcfg'] at hcfg
  have hpull := hholds.exec_getsignal hcfg (by rw [hseq, h0]) hcap
  refine ⟨t.pulled (src.headD 0), ?_, rfl⟩
  rw [trace_cons_next hwrite, trace_cons_next hpull, hresp]
  rfl

/-- Settles O13: the FINISHED ticks leave the block as it is (`trace_ticks_drained`), so the message is admitted there
(`trace_setpayload_getsignal`). -/
theorem startSlotHoldsWhileDrained : Obligations.StartSlotHoldsWhileDrained := by
  intro k s hcfg h0 hd
  obtain ⟨rs, t, htrace, hresp, hblock, houtside⟩ := trace_ticks_drained k h0 hd
  obtain ⟨hqueue, hseq⟩ := hblock
  have hcfg' : t.cfg = s.cfg := houtside.1
  refine ⟨rs, t, htrace, (trace_length htrace).trans List.length_replicate, hresp, ⟨hqueue, hseq⟩, houtside,
    fun n src hwf hpos => ?_⟩
  rw [← hcfg'] at hcfg hwf hpos
  exact trace_setpayload_getsignal hcfg (by rw [hseq, h0]) (by rw [hqueue, hd]) hwf hpos

/-- Settles O21: the pull of the last byte drains the queue, which is all that an admission looks at; the rest is said of a
drained queue at slot 0 (`trace_setpayload_getsignal`, `trace_ticks_drained_status`). -/
theorem messageBoundaries : Obligations.MessageBoundaries := by
  intro s n src hcfg h0 hwf hpos
  refine ⟨fun t hlast h => ?_, fun hdrained => ?_⟩
  · rcases exec_getsignal_cases hcfg h with ⟨-, hd, -⟩ | ⟨b, -, -, rfl⟩ | ⟨hlater, -⟩
    · omega -- FINISHED: the queue is not drained
    · exact ⟨(Queue.drained_iff _).2 hlast, rfl, _, exec_setpayload_ok hwf hlast, rfl, rfl⟩
    · exact absurd h0 hlater
  · have hd : s.queue.readOffset = s.queue.length := (Queue.drained_iff _).1 hdrained
    obtain ⟨u, htrace, hseq⟩ := trace_setpayload_getsignal hcfg h0 hd hwf hpos
    exact ⟨⟨u, htrace, by rw [hseq]⟩, fun k => trace_ticks_drained_status k h0 hd⟩

/-! ### The frame under way -/

/-- At least `n` slots of the frame under way are still to come; at slot 0 no frame is under way. -/
structure State.SlotsLeft (s : State) (n : Nat) : Prop where
  cursor_lt : s.seq.bitOffset < s.cfg.frameSlots
  fits      : s.seq.bitOffset + n ≤ s.cfg.frameSlots
  begun     : s.seq.bitOffset = 0 → n = 0

/-- The next `n` bits of the frame under way. -/
def State.nextBits (s : State) (n : Nat) : List Bool :=
  ((frame s.cfg s.seq.currentByte).drop s.seq.bitOffset).take n

theorem State.SlotsLeft.exec_getsignal {s : State} {n : Nat} (h : s.SlotsLeft (n + 1)) :
    exec .getsignal s = .next s.ticked :=
  exec_getsignal_later fun h0 => Nat.succ_ne_zero n (h.begun h0)

theorem State.SlotsLeft.ticked {s : State} {n : Nat} (h : s.SlotsLeft (n + 1)) : s.ticked.SlotsLeft n := by
  have hfits := h.fits
  have hnext : nextSlot s.cfg s.seq.bitOffset = s.seq.bitOffset + 1 ∨ nextSlot s.cfg s.seq.bitOffset = 0 ∧ n = 0 := by
    by_cases hk : s.seq.bitOffset + 1 < s.cfg.frameSlots
    · exact .inl (nextSlot_next hk)
    · exact .inr ⟨nextSlot_wrap (by omega), by omega⟩
  have hlt : nextSlot s.cfg s.seq.bitOffset < s.cfg.frameSlots := nextSlot_lt (Nat.zero_lt_of_lt h.cursor_lt)
  refine ⟨hlt, ?_, ?_⟩ <;> simp only [State.ticked] <;> omega

/-- An operation of the queue leaves the frame under way where it is. -/
theorem State.SlotsLeft.of_seq_eq {s t : State} {n : Nat} (h : s.SlotsLeft n) (hcfg : t.cfg = s.cfg)
    (hseq : t.seq = s.seq) : t.SlotsLeft n where
  cursor_lt := by rw [hcfg, hseq]; exact h.cursor_lt
  fits := by rw [hcfg, hseq]; exact h.fits
  begun := by rw [hseq]; exact h.begun

/-- A frame is emitted bit by bit: the bit of its slot `k`, then what is left from the next slot. -/
theorem frame_drop_take_succ {c : Config} {k n : Nat} (b : Byte) (hk : k + (n + 1) ≤ c.frameSlots) :
    ((frame c b).drop k).take (n + 1) = frameBit b k :: ((frame c b).drop (nextSlot c k)).take n := by
  rw [List.drop_eq_getElem_cons (by rw [frame_length]; omega), frame_getElem, List.take_succ_cons]
  cases n with
  | zero => rfl
  | succ n => rw [nextSlot_next (by omega)]

theorem State.SlotsLeft.nextBits_succ {s : State} {n : Nat} (h : s.SlotsLeft (n + 1)) :
    s.nextBits (n + 1) = frameBit s.seq.currentByte s.seq.bitOffset :: s.ticked.nextBits n :=
  frame_drop_take_succ _ h.fits

/-- R107, the sequencer's side: whatever queue operations come between them, the ticks of a frame under way emit its next
bits and count the cursor on; the byte latched stays. -/
theorem trace_frame_seq {ops : List Instr} {s t : State} {rs : List Response}
    (hleft : s.SlotsLeft (ops.count .getsignal)) (hreset : .reset ∉ ops) (h : trace ops s = some (rs, t)) :
    signals rs = (s.nextBits (ops.count .getsignal)).map (fun b => (.ok, b)) ∧
    t.seq.currentByte = s.seq.currentByte ∧
    t.seq.bitOffset = (s.seq.bitOffset + ops.count .getsignal) % s.cfg.frameSlots := by
  induction ops generalizing s rs with
  | nil =>
    obtain ⟨rfl, rfl⟩ := Prod.mk.inj (Option.some.inj h)
    exact ⟨rfl, rfl, (Nat.mod_eq_of_lt hleft.cursor_lt).symm⟩
  | cons i ops ih =>
    obtain ⟨v, rest, hv, hrest, rfl⟩ := trace_cons_some h
    obtain ⟨hi, hops⟩ := not_or.1 (mt List.mem_cons.2 hreset)
    by_cases htick : i = .getsignal
    · -- a tick of the frame
      subst htick
      rw [List.count_cons_self] at hleft ⊢
      obtain rfl := Host.Outcome.next.inj (hv.symm.trans hleft.exec_getsignal)
      obtain ⟨hsignals, hbyte, hcursor⟩ := ih hleft.ticked hops hrest
      refine ⟨?_, hbyte, ?_⟩
      · rw [signals_cons, hsignals, hleft.nextBits_succ]
        rfl
      · calc t.seq.bitOffset
            = (nextSlot s.cfg s.seq.bitOffset + ops.count .getsignal) % s.cfg.frameSlots := hcursor
          _ = (s.seq.bitOffset + (ops.count .getsignal + 1)) % s.cfg.frameSlots := by
            rw [nextSlot_eq_mod hleft.cursor_lt, Nat.mod_add_mod, Nat.add_assoc, Nat.add_comm 1]
    · -- an operation of the queue
      rw [List.count_cons_of_ne htick] at hleft ⊢
      obtain ⟨hseq, hnone⟩ := exec_queue_op htick (Ne.symm hi) hv
      obtain ⟨hsignals, hbyte, hcursor⟩ := ih (hleft.of_seq_eq (exec_cfg hv) hseq) hops hrest
      rw [signals_cons, hnone, List.nil_append, hsignals, hbyte, hcursor]
      simp only [State.nextBits, hseq, exec_cfg hv, and_self]

/-- The operations of the queue read the static parameters and the queue alone. -/
theorem exec_queue_op_congr {i : Instr} {s s' t : State} (hi : i ≠ .getsignal) (hr : i ≠ .reset)
    (hcfg : s'.cfg = s.cfg) (hqueue : s'.queue = s.queue) (h : exec i s = .next t) :
    ∃ t', exec i s' = .next t' ∧ t'.queue = t.queue := by
  rcases exec_next_cases h with ⟨hreset, -⟩ | ⟨n, src, rfl, hwf, ⟨hd, rfl⟩ | ⟨hd, rfl⟩⟩ | ⟨rfl, hd, rfl⟩ |
    ⟨b, rfl, hd, hc, hb, rfl⟩ | ⟨htick, -⟩ | ⟨_, htick, -⟩ | ⟨htick, -⟩
  case inl => exact absurd hreset hr
  case inr.inr.inr.inr.inl | inr.inr.inr.inr.inr.inl | inr.inr.inr.inr.inr.inr => exact absurd htick hi
  all_goals rw [← hqueue] at hd
  · exact ⟨_, exec_setpayload_ok (by rwa [hcfg]) hd, by rw [hcfg, hqueue]⟩
  · exact ⟨_, exec_setpayload_busy (by rwa [hcfg]) hd, hqueue⟩
  · exact ⟨_, exec_getbyte_finished hd, hqueue⟩
  · rw [← hqueue, ← hcfg] at hc
    rw [← hqueue] at hb
    exact ⟨_, exec_getbyte_ok hd hc hb, by rw [hqueue]⟩

/-- R107, the queue's side: within a frame the queue goes as if the ticks were not there. -/
theorem trace_frame_queue {ops : List Instr} {s s' t : State} {rs : List Response}
    (hleft : s.SlotsLeft (ops.count .getsignal)) (hreset : .reset ∉ ops) (hcfg : s'.cfg = s.cfg)
    (hqueue : s'.queue = s.queue) (h : trace ops s = some (rs, t)) :
    ∃ rs' t', trace (ops.filter (· ≠ .getsignal)) s' = some (rs', t') ∧ t'.queue = t.queue := by
  induction ops generalizing s s' rs with
  | nil =>
    obtain ⟨-, rfl⟩ := Prod.mk.inj (Option.some.inj h)
    exact ⟨[], s', rfl, hqueue⟩
  | cons i ops ih =>
    obtain ⟨v, rest, hv, hrest, -⟩ := trace_cons_some h
    obtain ⟨hi, hops⟩ := not_or.1 (mt List.mem_cons.2 hreset)
    by_cases htick : i = .getsignal
    · -- a tick of the frame
      subst htick
      rw [List.count_cons_self] at hleft
      obtain rfl := Host.Outcome.next.inj (hv.symm.trans hleft.exec_getsignal)
      exact ih hleft.ticked hops hcfg hqueue hrest
    · -- an operation of the queue
      rw [List.count_cons_of_ne htick] at hleft
      obtain ⟨v', hv', hqueue'⟩ := exec_queue_op_congr htick (Ne.symm hi) hcfg hqueue hv
      obtain ⟨rs', t', htrace, hend⟩ := ih (hleft.of_seq_eq (exec_cfg hv) (exec_queue_op htick (Ne.symm hi) hv).1) hops
        (by rw [exec_cfg hv', exec_cfg hv, hcfg]) hqueue' hrest
      refine ⟨v'.resp :: rs', t', ?_, hend⟩
      rw [List.filter_cons_of_pos (by simpa using htick), trace_cons_next hv', htrace]
      rfl

/-- Settles O18: the sequencer's side is `trace_frame_seq`, the queue's side `trace_frame_queue`. -/
theorem frameAtomicity : Obligations.FrameAtomicity := by
  intro ops s t rs _ hbegun hlt hle hreset h
  have hleft : s.SlotsLeft (ops.count .getsignal) := ⟨hlt, hle, by omega⟩
  obtain ⟨hsignals, hbyte, hcursor⟩ := trace_frame_seq hleft hreset h
  exact ⟨hsignals, hbyte, hcursor, trace_frame_queue hleft hreset rfl rfl h⟩

/-! ### The transmission of a message -/

/-- The ticks of a frame under way complete. -/
theorem State.SlotsLeft.trace_ticks_completes {n : Nat} {s : State} (h : s.SlotsLeft n) :
    ∃ rs t, trace (ticks n) s = some (rs, t) := by
  induction n generalizing s with
  | zero => exact ⟨[], s, rfl⟩
  | succ n ih =>
    obtain ⟨rs, t, htrace⟩ := ih h.ticked
    exact ⟨_, t, trace_ticks_succ h.exec_getsignal htrace⟩

/-- R107: ticks alone, within the frame under way, emit its next bits and leave the queue as it is. -/
theorem State.SlotsLeft.trace_ticks {n : Nat} {s : State} (h : s.SlotsLeft n) :
    ∃ rs t, trace (ticks n) s = some (rs, t) ∧ signals rs = (s.nextBits n).map (fun b => (.ok, b)) ∧
      t.seq.bitOffset = (s.seq.bitOffset + n) % s.cfg.frameSlots ∧ t.queue = s.queue := by
  obtain ⟨rs, t, htrace⟩ := h.trace_ticks_completes
  have hcount : (ticks n).count .getsignal = n := List.count_replicate_self
  have hreset : .reset ∉ ticks n := fun hmem => nomatch List.eq_of_mem_replicate hmem
  have hleft : s.SlotsLeft ((ticks n).count .getsignal) := by rwa [hcount]
  obtain ⟨hsignals, -, hcursor⟩ := trace_frame_seq hleft hreset htrace
  obtain ⟨rs', t', hnone, hqueue⟩ := trace_frame_queue hleft hreset rfl rfl htrace
  rw [hcount] at hsignals hcursor
  rw [ticks, List.filter_replicate] at hnone
  obtain ⟨-, rfl⟩ := Prod.mk.inj (Option.some.inj hnone)
  exact ⟨rs, t, htrace, hsignals, hcursor, hqueue.symm⟩

/-- After the pull all slots of the frame but the first are still to come, and so are its bits but the start bit. -/
theorem State.pulled_frame {s : State} (hcfg : s.cfg.Valid) (b : Byte) :
    ∃ n, s.cfg.frameSlots = n + 1 ∧ (s.pulled b).SlotsLeft n ∧ frame s.cfg b = false :: (s.pulled b).nextBits n := by
  have hslots := hcfg.slots_ge
  obtain ⟨n, hn⟩ : ∃ n, s.cfg.frameSlots = n + 1 := Nat.exists_eq_succ_of_ne_zero (Nat.ne_of_gt hcfg.slots_pos)
  refine ⟨n, hn, ⟨?_, ?_, nofun⟩, ?_⟩
  · show 1 < s.cfg.frameSlots; omega
  · show 1 + n ≤ s.cfg.frameSlots; omega
  · calc frame s.cfg b
        = ((frame s.cfg b).drop 0).take (n + 1) := by rw [List.drop_zero, ← hn, ← frame_length s.cfg b, List.take_length]
      _ = false :: ((frame s.cfg b).drop (nextSlot s.cfg 0)).take n := frame_drop_take_succ b (by omega)
      _ = false :: (s.pulled b).nextBits n := by rw [nextSlot_next (by omega)]; rfl

/-- R112 for one byte: FRAME_SLOTS ticks from slot 0 emit the frame of the oldest unread byte and end at slot 0, with that
byte read. -/
theorem Queue.Holds.trace_frame {s : State} {b : Byte} {msg : List Byte} (h : s.queue.Holds (b :: msg))
    (hcfg : s.cfg.Valid) (h0 : s.seq.bitOffset = 0) (hcap : s.queue.length ≤ s.cfg.capacity) :
    ∃ rs t, trace (ticks s.cfg.frameSlots) s = some (rs, t) ∧
      signals rs = (frame s.cfg b).map (fun x => (.ok, x)) ∧ t.seq.bitOffset = 0 ∧ t.queue.Holds msg ∧
      t.queue.length ≤ t.cfg.capacity := by
  obtain ⟨n, hn, hleft, hframe⟩ := State.pulled_frame hcfg b
  obtain ⟨rs, t, htrace, hsignals, hcursor, hqueue⟩ := hleft.trace_ticks
  refine ⟨(s.pulled b).resp :: rs, t, ?_, ?_, ?_, ?_, ?_⟩
  · rw [hn]
    exact trace_ticks_succ (h.exec_getsignal hcfg h0 hcap) htrace
  · rw [signals_cons, hsignals, hframe]
    rfl
  · rw [hcursor]
    show (1 + n) % s.cfg.frameSlots = 0
    rw [hn, Nat.add_comm, Nat.mod_self]
  · rw [hqueue]
    exact h.advance
  · rw [hqueue, trace_cfg htrace]
    exact hcap

/-- R112: from slot 0, FRAME_SLOTS ticks for each of the first unread bytes `msg` emit the frames of `msg` in order and end
at slot 0, with the rest unread. -/
theorem Queue.Holds.trace_frames {msg rest : List Byte} {s : State} (h : s.queue.Holds (msg ++ rest))
    (hcfg : s.cfg.Valid) (h0 : s.seq.bitOffset = 0) (hcap : s.queue.length ≤ s.cfg.capacity) :
    ∃ rs t, trace (ticks (msg.length * s.cfg.frameSlots)) s = some (rs, t) ∧
      signals rs = (msg.flatMap (frame s.cfg)).map (fun x => (.ok, x)) ∧ t.seq.bitOffset = 0 ∧ t.queue.Holds rest ∧
      t.queue.length ≤ t.cfg.capacity := by
  induction msg generalizing s with
  | nil => exact ⟨[], s, by rw [List.length_nil, Nat.zero_mul]; rfl, rfl, h0, h, hcap⟩
  | cons b msg ih =>
    obtain ⟨rs, t, htrace, hsignals, ht0, htholds, htcap⟩ := Queue.Holds.trace_frame h hcfg h0 hcap
    have htcfg : t.cfg = s.cfg := trace_cfg htrace
    obtain ⟨rs', u, htrace', hsignals', hu⟩ := ih htholds (by rwa [htcfg]) ht0 htcap
    rw [htcfg] at htrace' hsignals'
    refine ⟨rs ++ rs', u, ?_, ?_, hu⟩
    · rw [List.length_cons, Nat.succ_mul, Nat.add_comm, ticks_add]
      exact trace_append htrace htrace'
    · rw [signals_append, hsignals, hsignals', List.flatMap_cons, List.map_append]

/-- A drained queue stays drained under ticks. -/
theorem trace_ticks_keeps_drained {k : Nat} {s t : State} {rs : List Response} (h : trace (ticks k) s = some (rs, t))
    (hd : s.queue.readOffset = s.queue.length) : t.queue.readOffset = t.queue.length := by
  induction k generalizing s rs with
  | zero => obtain ⟨-, rfl⟩ := Prod.mk.inj (Option.some.inj h); exact hd
  | succ k ih =>
    obtain ⟨v, rest, hv, hrest, -⟩ := trace_cons_some h
    refine ih hrest ?_ -- one tick, at slot 0 or at a later one
    by_cases h0 : s.seq.bitOffset = 0
    · rwa [← Host.Outcome.next.inj ((exec_getsignal_finished h0 hd).symm.trans hv)]
    · rwa [← Host.Outcome.next.inj ((exec_getsignal_later h0).symm.trans hv)]

/-- So of two runs of ticks from one state, the longer ends drained if the shorter does. -/
theorem trace_ticks_drained_mono {j k : Nat} {s t u : State} {rs rs' : List Response} (hjk : j ≤ k)
    (hj : trace (ticks j) s = some (rs, t)) (hk : trace (ticks k) s = some (rs', u))
    (hd : t.queue.readOffset = t.queue.length) : u.queue.readOffset = u.queue.length := by
  obtain ⟨d, rfl⟩ := Nat.exists_eq_add_of_le hjk
  rw [ticks_add] at hk
  obtain ⟨v, a, b, hv, hrest, -⟩ := trace_append_some hk
  obtain ⟨-, rfl⟩ := Prod.mk.inj (Option.some.inj (hj.symm.trans hv))
  exact trace_ticks_keeps_drained hrest hd

/-- R112: the queue becomes drained at the tick that pulls the last byte, the first one of its frame. -/
theorem Queue.Holds.trace_ticks_drained_iff {msg : List Byte} {b : Byte} {s t : State} {k : Nat} {rs : List Response}
    (h : s.queue.Holds (msg ++ [b])) (hcfg : s.cfg.Valid) (h0 : s.seq.bitOffset = 0)
    (hcap : s.queue.length ≤ s.cfg.capacity) (htrace : trace (ticks k) s = some (rs, t)) :
    t.queue.readOffset = t.queue.length ↔ msg.length * s.cfg.frameSlots + 1 ≤ k := by
  obtain ⟨as, u, hbefore, -, hu0, huholds, hucap⟩ := h.trace_frames hcfg h0 hcap
  have hpull := huholds.exec_getsignal (by rwa [trace_cfg hbefore]) hu0 hucap
  have hafter : trace (ticks (msg.length * s.cfg.frameSlots + 1)) s =
      some (as ++ [(u.pulled b).resp], u.pulled b) := by
    rw [ticks_add]
    exact trace_append hbefore (trace_cons_next hpull)
  constructor
  · -- drained earlier, the queue would be drained with the last byte still unread
    intro hd
    refine Nat.lt_of_not_le fun hk => ?_
    exact Nat.ne_of_lt huholds.readOffset_lt (trace_ticks_drained_mono hk htrace hbefore hd)
  · intro hk
    exact trace_ticks_drained_mono hk hafter htrace (huholds.advance.readOffset_eq_length_iff.2 rfl)

/-- Settles O20: the frames are `trace_frames`, after which every tick is one on a drained queue
(`trace_ticks_drained_status`); the tick that drains it is `trace_ticks_drained_iff`'s, the last byte being cut off. -/
theorem messageTransmittedFrameByFrame : Obligations.MessageTransmittedFrameByFrame := by
  intro s msg hcfg h0 hholds hpos hcap
  refine ⟨?_, fun k rs t htrace => ?_⟩
  · rw [← List.append_nil msg] at hholds
    obtain ⟨rs, t, htrace, hsignals, ht0, htholds, -⟩ := hholds.trace_frames hcfg h0 hcap
    have hd : t.queue.readOffset = t.queue.length := htholds.readOffset_eq_length_iff.2 rfl
    exact ⟨rs, t, htrace, hsignals, ht0, (Queue.drained_iff _).2 hd, fun k => trace_ticks_drained_status k ht0 hd⟩
  · have hne : msg ≠ [] := List.ne_nil_of_length_pos hpos
    rw [← List.dropLast_concat_getLast hne] at hholds
    rw [Queue.drained_iff, hholds.trace_ticks_drained_iff hcfg h0 hcap htrace, List.length_dropLast]

end Sys2Proof.Machine

/-! Proofs about the environment (spec/42_environment.md): the driver's line, the scheduler's record of the task,
and the work the task runs. -/

namespace Sys2Proof.Machine

/-! ### The work of the task -/

/-- Everything a `SETPAYLOAD` that completes can do: OK (R80), BUSY (R81). -/
theorem exec_setpayload_cases {n : Nat} {src : List Byte} {s t : State} (h : exec (.setpayload n src) s = .next t) :
    (Instr.setpayload n src).wf s.cfg = true ∧
      ((s.queue.readOffset = s.queue.length ∧
          t = { s with queue := s.queue.store (storedMessage s.cfg n src), resp := .write .ok }) ∨
       (s.queue.readOffset ≠ s.queue.length ∧ t = s.answer (.write .busy))) := by
  rcases exec_next_cases h with ⟨hi, -⟩ | ⟨_, _, hi, hcases⟩ | ⟨hi, -⟩ | ⟨_, hi, -⟩ | ⟨hi, -⟩ | ⟨_, hi, -⟩ | ⟨hi, -⟩
  all_goals cases hi -- `SETPAYLOAD` alone is left
  exact hcases

/-- `SETPAYLOAD` answers a status and nothing else. -/
theorem exec_setpayload_resp {n : Nat} {src : List Byte} {s t : State} (h : exec (.setpayload n src) s = .next t) :
    ∃ st, t.resp = .write st := by
  obtain ⟨-, ⟨-, rfl⟩ | ⟨-, rfl⟩⟩ := exec_setpayload_cases h
  · exact ⟨.ok, rfl⟩
  · exact ⟨.busy, rfl⟩

/-- `SETPAYLOAD` reads nothing of the environment or the waiting inputs. -/
theorem exec_setpayload_outside {n : Nat} {src : List Byte} {s t : State} (e : Environment) (l : List Input)
    (h : exec (.setpayload n src) s = .next t) :
    exec (.setpayload n src) { s with env := e, inputs := l } = .next { t with env := e, inputs := l } := by
  obtain ⟨hwf, ⟨hd, rfl⟩ | ⟨hd, rfl⟩⟩ := exec_setpayload_cases h
  · exact exec_setpayload_ok hwf hd
  · exact exec_setpayload_busy hwf hd

@[simp] theorem Work.reschedule_resp (w : Work) (s : State) : (w.reschedule s).resp = s.resp := by
  rcases w.reschedule_cases s with ⟨_, -, hr⟩ | ⟨-, hr⟩
  · rw [hr, State.withTask_resp]
  · rw [hr]

@[simp] theorem Work.reschedule_inputs (w : Work) (s : State) : (w.reschedule s).inputs = s.inputs := by
  rcases w.reschedule_cases s with ⟨_, -, hr⟩ | ⟨-, hr⟩
  · rw [hr, State.withTask_inputs]
  · rw [hr]

@[simp] theorem Work.reschedule_line (w : Work) (s : State) : (w.reschedule s).env.line = s.env.line := by
  rcases w.reschedule_cases s with ⟨_, -, hr⟩ | ⟨-, hr⟩
  · rw [hr, State.withTask_env]
  · rw [hr]

@[simp] theorem Work.reschedule_lastRunTimestamp (w : Work) (s : State) :
    (w.reschedule s).env.task.lastRunTimestamp = s.env.task.lastRunTimestamp := by
  rcases w.reschedule_cases s with ⟨_, -, hr⟩ | ⟨-, hr⟩
  · rw [hr, State.withTask_env, Task.schedule_lastRunTimestamp]
  · rw [hr]

theorem Work.reschedule_of_some {w : Work} {s : State} {p : Nat} (h : w.nextPeriod s.resp = some p) :
    w.reschedule s = s.withTask (s.env.task.schedule p) := by
  rw [Work.reschedule, h]

theorem Work.reschedule_of_none {w : Work} {s : State} (h : w.nextPeriod s.resp = none) : w.reschedule s = s := by
  rw [Work.reschedule, h]

/-- The two answers of a `SETPAYLOAD` are all that a work re-schedules itself on (R129). -/
theorem Work.nextPeriod_none {w : Work} (hok : w.afterOk = none) (hbusy : w.afterBusy = none) (r : Response) :
    w.nextPeriod r = none := by
  unfold Work.nextPeriod
  split
  · exact hok
  · exact hbusy
  all_goals rfl

/-! ### Steps -/

theorem Task.due_iff (t : Task) (now : Nat) :
    t.due now = true ↔ t.active = true ∧ t.period ≤ now - t.lastRunTimestamp := by
  rw [Task.due, Bool.and_eq_true, decide_eq_true_iff]

theorem Task.not_due_iff (t : Task) (now : Nat) :
    t.due now = false ↔ t.active = false ∨ now - t.lastRunTimestamp < t.period := by
  rw [Task.due, Bool.and_eq_false_iff, decide_eq_false_iff_not, Nat.not_le]

/-- A step that samples an operation's request performs it, and the driver sees its outputs (R62, R121). -/
theorem step_operation {s u : State} {r : Request} {rest : List Input} {i : Instr} (hin : s.inputs = .request r :: rest)
    (hdec : decode r = .instr i) (h : exec i { s with inputs := rest } = .next u) : step s = .next u.driveLine := by
  rw [step_request hin, runRequest_instr hdec, h, Outcome.thenDo_next]

/-- R127: `schedule` writes the record and clears the outputs. -/
theorem step_schedule {s : State} {p : Nat} {rest : List Input} (hin : s.inputs = .schedule p :: rest) :
    step s = .next (State.withTask { s with inputs := rest } (s.env.task.schedule p)).quiet := by
  simp only [step, stepInput, hin, runInput]

/-- R128: with the task not due, `execute` is a no-op. -/
theorem step_execute_not_due {s : State} {now : Nat} {w : Work} {rest : List Input}
    (hin : s.inputs = .execute now w :: rest) (hdue : s.env.task.due now = false) :
    step s = .next (State.quiet { s with inputs := rest }) := by
  simp only [step, stepInput, hin, runInput, runExecute, hdue, Bool.false_eq_true, if_false]

/-- R128: with the task due, `execute` starts it and runs its work. -/
theorem step_execute_due {s : State} {now : Nat} {w : Work} {rest : List Input}
    (hin : s.inputs = .execute now w :: rest) (hdue : s.env.task.due now = true) :
    step s = Outcome.thenDo
      (exec (.setpayload w.n w.src) (State.withTask { s with inputs := rest } (s.env.task.started now)))
      w.reschedule := by
  simp only [step, stepInput, hin, runInput, runExecute, hdue, if_true]

/-- A step takes the oldest input. -/
theorem step_inputs {s t : State} (h : step s = .next t) : t.inputs = s.inputs.tail := by
  rcases step_next_cases h with ⟨hin, rfl⟩ | ⟨r, rest, hin, ⟨i, u, -, hu, rfl⟩ | ⟨-, rfl⟩⟩ | ⟨p, rest, hin, rfl⟩ |
    ⟨now, w, rest, hin, ⟨-, rfl⟩ | ⟨-, u, rfl, hu⟩⟩
  all_goals rw [hin]
  case inl => exact hin -- no input is waiting
  case inr.inl.inl => -- a request's operation, then the driver
    obtain ⟨-, -, hinputs⟩ := exec_sameOutside hu
    rw [State.driveLine_inputs, hinputs, List.tail_cons]
  case inr.inr.inr.inr => -- the work of a due task: its `SETPAYLOAD`, then the re-schedule
    obtain ⟨-, -, hinputs⟩ := exec_sameOutside hu
    rw [Work.reschedule_inputs, hinputs, State.withTask_inputs, List.tail_cons]
  all_goals rfl -- no operation is performed

/-! ### The line -/

theorem State.driveLine_eq_of_ok {s : State} {b : Bool} (h : s.resp = .signal .ok b) :
    s.driveLine = { s with env := { s.env with line := some b } } := by
  rw [State.driveLine, h]

/-- Settles O42: the driver alone writes the line (`driveLine_eq_of_ok`, `driveLine_hold`), and the outputs of a step
without a request of an operation are none or the work's status. -/
theorem lineFollowsOkTicks : Obligations.LineFollowsOkTicks := by
  refine ⟨fun s t h => ?_, fun s u r rest i hin hdec hu => ⟨fun b hb => ?_, fun hno => ?_⟩⟩
  · rcases step_next_cases h with ⟨-, rfl⟩ | ⟨r, rest, -, ⟨i, u, -, hu, rfl⟩ | ⟨-, rfl⟩⟩ | ⟨p, rest, -, rfl⟩ |
      ⟨now, w, rest, -, ⟨-, rfl⟩ | ⟨-, u, rfl, hu⟩⟩
    case inr.inl.inl => -- a request's operation, then the driver
      obtain ⟨-, henv, -⟩ := exec_sameOutside hu
      rw [State.driveLine_resp]
      exact ⟨fun b hb => u.driveLine_ok hb, fun hno => by rw [u.driveLine_hold hno, henv]⟩
    case inr.inr.inr.inr => -- the work of a due task: its `SETPAYLOAD`, then the re-schedule
      obtain ⟨-, henv, -⟩ := exec_sameOutside hu
      obtain ⟨st, hresp⟩ := exec_setpayload_resp hu
      rw [Work.reschedule_resp, hresp, Work.reschedule_line, henv]
      exact ⟨nofun, fun _ => rfl⟩
    all_goals exact ⟨nofun, fun _ => rfl⟩ -- no operation is performed
  · rw [step_operation hin hdec hu, State.driveLine_eq_of_ok hb]
  · rw [step_operation hin hdec hu, u.driveLine_hold hno]

/-- R102, R121: a tick at slot 0 with a drained queue holds the line. -/
theorem step_tick_drained {s : State} {rest : List Input} (h0 : s.seq.bitOffset = 0)
    (hd : s.queue.readOffset = s.queue.length) (hin : s.inputs = .request (encode .getsignal) :: rest) :
    step s = .next (State.finishedSignal { s with inputs := rest }) := by
  rw [step_operation hin (decode_encode _) (exec_getsignal_finished h0 hd)]
  rfl

/-- R102, R121: so does a run of such ticks, which leave the block as it is. -/
theorem run_ticks_drained (k : Nat) {s : State} {rest : List Input} (h0 : s.seq.bitOffset = 0)
    (hd : s.queue.readOffset = s.queue.length)
    (hin : s.inputs = List.replicate k (.request (encode .getsignal)) ++ rest) :
    ∃ t, Sys2Proof.core.run k s = .next t ∧ s.SameBlock t ∧ t.env = s.env ∧ t.inputs = rest := by
  induction k generalizing s with
  | zero => exact ⟨s, rfl, ⟨rfl, rfl⟩, rfl, hin⟩
  | succ k ih =>
    rw [List.replicate_succ, List.cons_append] at hin
    rw [core_run_succ (step_tick_drained h0 hd hin)]
    exact ih h0 hd rfl

/-- R104, R121: the tick at the last slot of a frame drives the line to 1 and ends the frame. -/
theorem step_tick_last_slot {s : State} {rest : List Input} (hcfg : s.cfg.Valid)
    (hlast : s.seq.bitOffset + 1 = s.cfg.frameSlots) (hin : s.inputs = .request (encode .getsignal) :: rest) :
    ∃ t, step s = .next t ∧ t.env.line = some true ∧ t.seq.bitOffset = 0 ∧ t.queue = s.queue ∧ t.inputs = rest := by
  have hstop : 8 ≤ s.seq.bitOffset := by have := hcfg.slots_ge; omega
  have hwrap : nextSlot s.cfg s.seq.bitOffset = 0 := nextSlot_wrap (Nat.le_of_eq hlast.symm)
  have hstep := step_operation hin (decode_encode _) (exec_getsignal_stop hstop)
  rw [State.driveLine_eq_of_ok rfl] at hstep
  exact ⟨_, hstep, rfl, hwrap, rfl, rfl⟩

/-- Settles O43: the tick at the last slot drives the line to 1 (`step_tick_last_slot`), and the ticks after it hold it
(`run_ticks_drained`). -/
theorem lineHighBetweenMessages : Obligations.LineHighBetweenMessages := by
  intro s k rest hcfg hlast hdrained hin
  rw [List.replicate_succ, List.cons_append] at hin
  obtain ⟨u, hstep, hline, h0, hqueue, hinputs⟩ := step_tick_last_slot hcfg hlast hin
  have hd : u.queue.readOffset = u.queue.length := by rw [hqueue]; exact (Queue.drained_iff _).1 hdrained
  obtain ⟨t, hrun, ⟨hqueue', hseq⟩, henv, hinputs'⟩ := run_ticks_drained k h0 hd hinputs
  exact ⟨t, (core_run_succ hstep).trans hrun, by rw [henv, hline], by rw [hseq, h0], hqueue'.trans hqueue, hinputs'⟩

/-! ### The scheduler -/

/-- Settles O44: the step takes the call, writes the record and clears the outputs, no more (`step_schedule`). -/
theorem scheduleMarksTaskActive : Obligations.ScheduleMarksTaskActive :=
  fun _ _ _ hin => ⟨_, step_schedule hin, ⟨rfl, rfl⟩, rfl, rfl, rfl⟩

/-- Settles O45: the work's `SETPAYLOAD` does what it does in the given state (`exec_setpayload_outside`), and the
re-schedule after it changes at most the task's activity and period. -/
theorem executeRunsDueTask : Obligations.ExecuteRunsDueTask := by
  intro s now w rest hin
  refine ⟨fun hidle => step_execute_not_due hin ((Task.not_due_iff _ _).2 hidle), fun u hactive helapsed hu => ?_⟩
  have hdue : s.env.task.due now = true := (Task.due_iff _ _).2 ⟨hactive, helapsed⟩
  have hwork := exec_setpayload_outside { s.env with task := s.env.task.started now } rest hu
  refine ⟨w.reschedule { u with env := { s.env with task := s.env.task.started now }, inputs := rest }, ?_,
    w.reschedule_sameBlock _, w.reschedule_resp _, w.reschedule_inputs _, w.reschedule_line _,
    w.reschedule_lastRunTimestamp _, fun hok hbusy => ?_⟩
  · rw [step_execute_due hin hdue]
    exact congrArg (Outcome.thenDo · w.reschedule) hwork
  · rw [Work.reschedule_of_none (Work.nextPeriod_none hok hbusy _)]
    rfl

/-- R130: no step but a call of `schedule` changes the record of an inactive task. -/
theorem step_keeps_inactive_task {s t : State} (h : step s = .next t) (hidle : s.env.task.active = false)
    (hno : ∀ p, .schedule p ∉ s.inputs.take 1) : t.env.task = s.env.task := by
  rcases step_next_cases h with ⟨-, rfl⟩ | ⟨r, rest, -, ⟨i, u, -, hu, rfl⟩ | ⟨-, rfl⟩⟩ | ⟨p, rest, hin, -⟩ |
    ⟨now, w, rest, -, ⟨-, rfl⟩ | ⟨hdue, -⟩⟩
  case inr.inl.inl => -- a request's operation, then the driver
    obtain ⟨-, henv, -⟩ := exec_sameOutside hu
    rw [State.driveLine_env_task, henv]
  case inr.inr.inl => exact absurd (by rw [hin]; exact List.mem_cons_self) (hno p) -- `schedule`
  case inr.inr.inr.inr => -- a due task is active
    rw [Task.due, hidle, Bool.false_and] at hdue
    cases hdue
  all_goals rfl -- no operation is performed

/-- R130: an inactive task stays as it is until it is scheduled. -/
theorem run_keeps_inactive_task {k : Nat} {s t : State} (h : Sys2Proof.core.run k s = .next t)
    (hidle : s.env.task.active = false) (hno : ∀ p, .schedule p ∉ s.inputs.take k) : t.env.task = s.env.task := by
  induction k generalizing s with
  | zero => rw [Host.Outcome.next.inj h]
  | succ k ih =>
    obtain ⟨u, hstep, hrun⟩ := core_run_succ_next h
    have htask : u.env.task = s.env.task := step_keeps_inactive_task hstep hidle fun p hp =>
      hno p (List.take_subset_take_left _ (Nat.le_add_left 1 k) hp)
    rw [ih hrun (by rw [htask, hidle]), htask]
    intro p hp
    rw [step_inputs hstep, ← List.drop_one, List.take_drop, Nat.add_comm] at hp
    exact hno p (List.mem_of_mem_drop hp)

/-- Settles O46: the record is the started one (R128), re-scheduled with the period for the status, if there is one;
else it is inactive and stays so (`run_keeps_inactive_task`). -/
theorem taskReschedulesByStatus : Obligations.TaskReschedulesByStatus := by
  intro s t now w rest hin hdue hstep
  rw [step_execute_due hin hdue] at hstep
  obtain ⟨u, hu, rfl⟩ := Outcome.thenDo_eq_next hstep
  have htask : u.env.task = s.env.task.started now := by
    obtain ⟨-, henv, -⟩ := exec_sameOutside hu
    rw [henv]; rfl
  rw [Work.reschedule_resp]
  refine ⟨fun p hok hp => ?_, fun p hbusy hp => ?_, fun hstop => ?_⟩
  · rw [Work.reschedule_of_some (by rw [hok]; exact hp), State.withTask_env, htask]; rfl
  · rw [Work.reschedule_of_some (by rw [hbusy]; exact hp), State.withTask_env, htask]; rfl
  · have hnone : w.nextPeriod u.resp = none := by
      rcases hstop with ⟨hr, hp⟩ | ⟨hr, hp⟩
      all_goals rw [hr]; exact hp
    rw [Work.reschedule_of_none hnone]
    refine ⟨htask, fun k v hno hrun => ?_⟩
    have hkept : v.env.task = u.env.task := run_keeps_inactive_task hrun (by rw [htask]; rfl) hno
    refine ⟨hkept, fun now' w' rest' hin' => step_execute_not_due hin' ((Task.not_due_iff _ _).2 (.inl ?_))⟩
    rw [hkept, htask, Task.started_active]

end Sys2Proof.Machine

/-! Proofs about the exceptions (spec/60_exceptions.md): the block has none, so every legal operation completes with a
status; what each status means for the block, and how the producer answers BUSY. -/

namespace Sys2Proof.Machine

/-! ### Every legal operation completes -/

/-- R140, R43: under the invariant no operation faults. -/
theorem exec_never_faults {i : Instr} {s : State} {f : Fault} (hs : s.Inv) : exec i s ≠ .fault f := fun h =>
  Queue.pull_never_stops hs.queue_inv (exec_fault_cases h).1

/-- R140, R158: so a well-formed operation, which is not refused either, has a next state. -/
theorem exec_completes {i : Instr} {s : State} (hs : s.Inv) (hwf : i.wf s.cfg = true) : ∃ t, exec i s = .next t := by
  cases h : exec i s with
  | next t => exact ⟨t, rfl⟩
  | fault f => exact absurd h (exec_never_faults hs)
  | refused r =>
    obtain ⟨n, src, rfl, hr⟩ := exec_refused_cases h
    rw [(setpayloadRefusal_none_iff _ _ _).2 hwf] at hr
    cases hr

/-- An operation whose request has no meaning is refused, whatever the queue's state. -/
theorem exec_setpayload_refused {n : Nat} {src : List Byte} {s : State} {r : Refusal}
    (h : setpayloadRefusal s.cfg n src = some r) : exec (.setpayload n src) s = .refused r := by
  rw [exec, execSetpayload, h]

/-- Settles O33: a well-formed operation completes (`exec_completes`); only a `SETPAYLOAD` is ill-formed, and it is refused
for one of the two reasons of `setpayloadRefusal_cases`. -/
theorem legalOperationsComplete : Obligations.LegalOperationsComplete := by
  refine fun i s => ⟨exec_completes, fun hwf => ?_⟩
  cases i with
  | setpayload n src =>
    cases hr : setpayloadRefusal s.cfg n src with
    | none =>
      rw [(setpayloadRefusal_none_iff _ _ _).1 hr] at hwf
      cases hwf
    | some r =>
      rw [exec_setpayload_refused hr]
      rcases setpayloadRefusal_cases hr with ⟨rfl, -⟩ | ⟨rfl, -⟩
      · exact .inr rfl
      · exact .inl rfl
  | reset | getbyte | getsignal => cases hwf -- no operands to check

/-- A step faults only through an operation, performed on the block the step began with. -/
theorem step_fault_cases {s : State} {f : Fault} (h : step s = .fault f) :
    ∃ i u, exec i u = .fault f ∧ u.cfg = s.cfg ∧ s.SameBlock u := by
  cases hin : s.inputs with
  | nil => rw [step_no_input hin] at h; cases h
  | cons input rest =>
    cases input with
    | request r =>
      rw [step_request hin] at h
      cases hdec : decode r with
      | instr i =>
        rw [runRequest_instr hdec] at h
        exact ⟨i, _, Outcome.thenDo_eq_fault h, rfl, rfl, rfl⟩
      | idle => rw [runRequest_idle hdec] at h; cases h
      | overlap v => rw [runRequest_overlap hdec] at h; cases h
    | schedule p => rw [step_schedule hin] at h; cases h
    | execute now w =>
      cases hdue : s.env.task.due now with
      | false => rw [step_execute_not_due hin hdue] at h; cases h
      | true =>
        rw [step_execute_due hin hdue] at h
        exact ⟨_, _, Outcome.thenDo_eq_fault h, rfl, rfl, rfl⟩

/-- Settles O40: a step that faults performs an operation that faults (`step_fault_cases`), on a state that meets the
invariant too, where none does (`exec_never_faults`). -/
theorem stepNeverFaults : Obligations.StepNeverFaults := by
  intro s f hs h
  obtain ⟨i, u, hu, hcfg, hblock⟩ := step_fault_cases h
  exact exec_never_faults (hs.of_sameBlock hcfg hblock) hu

/-! ### The statuses -/

/-- Settles O29, one bullet for each thing an operation can do. -/
theorem statusTable : Obligations.StatusTable := by
  intro i s t h
  rcases exec_next_cases h with ⟨rfl, rfl⟩ | ⟨n, src, rfl, -, ⟨hd, rfl⟩ | ⟨hd, rfl⟩⟩ | ⟨rfl, hd, rfl⟩ |
    ⟨b, rfl, hd, -, -, rfl⟩ | ⟨rfl, h0, hd, rfl⟩ | ⟨b, rfl, -, hd, -, -, rfl⟩ | ⟨rfl, h0, rfl⟩
  · -- `RESET`
    rfl
  · -- `SETPAYLOAD` answers OK
    exact congrArg some (if_pos hd).symm
  · -- `SETPAYLOAD` answers BUSY
    exact congrArg some (if_neg hd).symm
  · -- `GETBYTE` answers FINISHED
    exact congrArg some (if_pos hd).symm
  · -- `GETBYTE` answers OK
    exact congrArg some (if_neg hd).symm
  · -- `GETSIGNAL` answers FINISHED
    exact congrArg some (if_pos ⟨h0, hd⟩).symm
  · -- `GETSIGNAL` pulls a byte at slot 0: undrained
    exact congrArg some (if_neg fun hfinished => hd hfinished.2).symm
  · -- `GETSIGNAL` at a later slot
    exact congrArg some (if_neg fun hfinished => h0 hfinished.1).symm

/-- R151: of all an operation can do, the answers other than OK leave the block as it is. -/
theorem exec_sameBlock_of_not_ok {i : Instr} {s t : State} {st : Status} (h : exec i s = .next t)
    (hst : t.resp.status = some st) (hne : st ≠ .ok) : s.SameBlock t := by
  rcases exec_next_cases h with ⟨-, rfl⟩ | ⟨n, src, -, -, ⟨-, rfl⟩ | ⟨-, rfl⟩⟩ | ⟨-, -, rfl⟩ | ⟨b, -, -, -, -, rfl⟩ |
    ⟨-, -, -, rfl⟩ | ⟨b, -, -, -, -, -, rfl⟩ | ⟨-, -, rfl⟩
  case inl => cases hst -- `RESET` answers no status
  case inr.inl.inr | inr.inr.inl | inr.inr.inr.inr.inl => exact ⟨rfl, rfl⟩ -- BUSY, FINISHED, FINISHED
  all_goals exact absurd (Option.some.inj hst).symm hne -- OK

/-- Settles O31: the frame of every operation is `exec_sameOutside`, that of an answer other than OK
`exec_sameBlock_of_not_ok`. -/
theorem nonOkChangesNothing : Obligations.NonOkChangesNothing := fun _ _ _ h =>
  ⟨exec_sameOutside h, fun _ => exec_sameBlock_of_not_ok h⟩

/-! ### Ticks drain the queue -/

/-- The cells at `readOffset` to `length` of a reachable queue hold its unread bytes (R20, R24). -/
theorem Queue.Inv.exists_holds {c : Config} {q : Queue} (h : q.Inv c) : ∃ msg, q.Holds msg := by
  have hcell (j : Fin (q.length - q.readOffset)) : (Memory.read q.bytes (q.readOffset + j)).isSome :=
    h.cells _ (by have := h.length_le; omega)
  refine ⟨List.ofFn fun j => (Memory.read q.bytes (q.readOffset + j)).get (hcell j), List.length_ofFn, h.read_le,
    fun j hj => ?_⟩
  rw [List.getElem_ofFn, Option.some_get]

/-- R107: the ticks left of the frame under way, at most FRAME_SLOTS, bring the cursor to slot 0 and leave the queue as
it is. -/
theorem State.Inv.trace_ticks_to_slot_zero {s : State} (hs : s.Inv) :
    ∃ k rs t, k ≤ s.cfg.frameSlots ∧ trace (ticks k) s = some (rs, t) ∧ t.seq.bitOffset = 0 ∧ t.queue = s.queue := by
  by_cases h0 : s.seq.bitOffset = 0
  · exact ⟨0, [], s, Nat.zero_le _, rfl, h0, rfl⟩
  · have hlt := hs.cursor_lt
    have hleft : s.SlotsLeft (s.cfg.frameSlots - s.seq.bitOffset) :=
      ⟨hlt, by omega, fun h => absurd h h0⟩
    obtain ⟨rs, t, htrace, -, hcursor, hqueue⟩ := hleft.trace_ticks
    rw [Nat.add_sub_of_le (Nat.le_of_lt hlt), Nat.mod_self] at hcursor
    exact ⟨_, rs, t, Nat.sub_le _ _, htrace, hcursor, hqueue⟩

/-- R189: the frame under way is finished, and then each unread byte is pulled and its frame emitted. -/
theorem State.Inv.trace_ticks_drains {s : State} (hs : s.Inv) :
    ∃ k rs t, k ≤ (s.queue.length - s.queue.readOffset + 1) * s.cfg.frameSlots ∧ trace (ticks k) s = some (rs, t) ∧
      t.queue.readOffset = t.queue.length := by
  obtain ⟨msg, hholds⟩ := hs.queue_inv.exists_holds
  have hlength : msg.length = s.queue.length - s.queue.readOffset := hholds.1
  obtain ⟨j, rs, t, hj, htrace, ht0, hqueue⟩ := hs.trace_ticks_to_slot_zero
  have htcfg : t.cfg = s.cfg := trace_cfg htrace
  rw [← hqueue, ← List.append_nil msg] at hholds
  obtain ⟨rs', u, htrace', -, -, hempty, -⟩ := hholds.trace_frames (htcfg ▸ hs.cfg_valid) ht0
    (by rw [hqueue, htcfg]; exact hs.queue_inv.length_le)
  rw [htcfg] at htrace'
  refine ⟨j + msg.length * s.cfg.frameSlots, rs ++ rs', u, ?_, ?_, hempty.readOffset_eq_length_iff.2 rfl⟩
  · rw [← hlength, Nat.succ_mul]
    omega
  · rw [ticks_add]
    exact trace_append htrace htrace'

/-! ### `SEND` -/

/-- `SEND` ends with the attempt that answers OK (R74). -/
theorem sendRetrying_of_ok {msg : List Byte} {attempts : List (List Instr)} {s t : State}
    (h : exec (send msg) s = .next t) (hok : t.resp = .write .ok) :
    sendRetrying msg attempts s = some ([.write .ok], t) := by
  cases attempts with
  | nil => rw [sendRetrying, trace_cons_next h, hok]; rfl
  | cons other later => simp only [sendRetrying, h, hok, if_true]

/-- `SEND` goes on after an attempt that does not answer OK: the other operations, then the attempts left (R74, R152). -/
theorem sendRetrying_of_not_ok {msg : List Byte} {other : List Instr} {later : List (List Instr)} {s t u v : State}
    {rs rs' : List Response} (h : exec (send msg) s = .next t) (hnot : t.resp ≠ .write .ok)
    (hother : trace other t = some (rs, u)) (hlater : sendRetrying msg later u = some (rs', v)) :
    sendRetrying msg (other :: later) s = some (t.resp :: rs ++ rs', v) := by
  simp only [sendRetrying, h, hnot, if_false, hother, hlater, Option.map_some]

/-- What is stored of a `SEND`'s message is its first CAPACITY bytes (R82). -/
theorem storedMessage_send (c : Config) (msg : List Byte) : storedMessage c msg.length msg = msg.take c.capacity := by
  rw [storedMessage, storedLength, List.take_eq_take_iff]
  omega

/-- Drained, an attempt of `SEND` is admitted and the queue holds the message, cut to CAPACITY (R80, R82). -/
theorem exec_send_admitted {msg : List Byte} {s : State} (hwf : (send msg).wf s.cfg = true)
    (hd : s.queue.readOffset = s.queue.length) :
    ∃ t, exec (send msg) s = .next t ∧ t.resp = .write .ok ∧ t.queue.Holds (msg.take s.cfg.capacity) := by
  obtain ⟨t, ht, hresp, hholds, -⟩ := exec_setpayload_holds hwf hd
  rw [storedMessage_send] at hholds
  exact ⟨t, ht, hresp, hholds⟩

/-- Settles O24: a message refused BUSY leaves the block as it is, so ticks drain the queue (`State.Inv.trace_ticks_drains`)
and the second attempt is admitted. -/
theorem retriedSendIsAdmitted : Obligations.RetriedSendIsAdmitted := by
  intro s msg hs hwf
  by_cases hd : s.queue.readOffset = s.queue.length
  · -- the first attempt is admitted
    obtain ⟨t, ht, hok, hholds⟩ := exec_send_admitted hwf hd
    exact ⟨0, _, t, sendRetrying_of_ok ht hok, rfl, hholds⟩
  · -- the first attempt is refused
    have hbusy : exec (send msg) s = .next (s.answer (.write .busy)) := exec_setpayload_busy hwf hd
    obtain ⟨k, rs, t, -, htrace, hdrained⟩ := (exec_keeps_inv hbusy hs).trace_ticks_drains
    have hcfg : t.cfg = s.cfg := (trace_cfg htrace).trans (exec_cfg hbusy)
    obtain ⟨u, hu, hok, hholds⟩ := exec_send_admitted (hcfg ▸ hwf) hdrained
    rw [hcfg] at hholds
    exact ⟨k, _, u, sendRetrying_of_not_ok hbusy nofun htrace (sendRetrying_of_ok hu hok), List.getLast?_concat, hholds⟩

end Sys2Proof.Machine

/-! Proofs about reset and the hazards (spec/70_reset_and_hazards.md): what a reset leaves and what it leaves unspecified,
a direct read between two frames, and the progress of the ticks. -/

namespace Sys2Proof

/-! ### Answers that agree -/

@[simp] theorem Response.agree_refl (r : Response) : r.agree r := by
  cases r with
  | none => trivial
  | write st => exact rfl
  | byte st x => exact ⟨rfl, fun _ => rfl⟩
  | signal st x => exact ⟨rfl, fun _ => rfl⟩

/-- `data` with FINISHED carries no meaning (R63, D7). -/
theorem Response.agree_byte_finished (x y : Byte) : Response.agree (.byte .finished x) (.byte .finished y) :=
  ⟨rfl, nofun⟩

/-- `bit` with FINISHED carries no meaning (R63, D7). -/
theorem Response.agree_signal_finished (x y : Bool) : Response.agree (.signal .finished x) (.signal .finished y) :=
  ⟨rfl, nofun⟩

end Sys2Proof

namespace Sys2Proof.Machine

/-! ### States alike in everything a rule reads -/

namespace State.Alike

variable {s t : State}

theorem readOffset_eq_length_iff (h : s.Alike t) :
    t.queue.readOffset = t.queue.length ↔ s.queue.readOffset = s.queue.length := by
  rw [h.readOffset, h.length]

/-- The cell that a pull reads holds the same byte, since R24 keeps it below `length` (D13). -/
theorem read_readOffset (h : s.Alike t) (hlt : s.queue.readOffset < s.queue.length) :
    Memory.read t.queue.bytes t.queue.readOffset = Memory.read s.queue.bytes s.queue.readOffset := by
  rw [← h.readOffset, h.bytes _ hlt]

/-- What does not change the block keeps two states alike. -/
theorem of_sameBlock {s' t' : State} (h : s.Alike t) (hcfg : s'.cfg = s.cfg) (hcfg' : t'.cfg = t.cfg)
    (hs : s.SameBlock s') (ht : t.SameBlock t') : s'.Alike t' := by
  obtain ⟨hqueue, hseq⟩ := hs
  obtain ⟨hqueue', hseq'⟩ := ht
  constructor
  case cfg => rw [hcfg, hcfg', h.cfg]
  case length => rw [hqueue, hqueue', h.length]
  case readOffset => rw [hqueue, hqueue', h.readOffset]
  case bitOffset => rw [hseq, hseq', h.bitOffset]
  case bytes => rw [hqueue, hqueue']; exact h.bytes
  case current => rw [hseq, hseq']; exact h.current

/-- `RESET` makes any two states of one instance alike (R170, R172). -/
theorem cleared (hcfg : s.cfg = t.cfg) : s.cleared.Alike t.cleared :=
  ⟨hcfg, rfl, rfl, rfl, nofun, fun h => absurd rfl h⟩

/-- A stored message is all that is read of the queue it is stored in (R80, D13). -/
theorem stored {msg msg' : List Byte} (h : s.Alike t) (hmsg : msg = msg') (r : Response) :
    State.Alike { s with queue := s.queue.store msg, resp := r } { t with queue := t.queue.store msg', resp := r } := by
  subst hmsg
  refine ⟨h.cfg, rfl, rfl, h.bitOffset, fun i hi => ?_, h.current⟩
  obtain ⟨-, -, hs⟩ := s.queue.store_holds msg
  obtain ⟨-, -, ht⟩ := t.queue.store_holds msg
  simpa using (hs i hi).trans (ht i hi).symm

end State.Alike

/-- R101 in every instance: at slot 0 with a byte to pull, `GETSIGNAL` latches it and moves on. -/
theorem exec_getsignal_latch {s : State} {b : Byte} (h0 : s.seq.bitOffset = 0)
    (hd : s.queue.readOffset ≠ s.queue.length) (hc : s.queue.readOffset < s.cfg.capacity)
    (hb : Memory.read s.queue.bytes s.queue.readOffset = some b) :
    exec .getsignal s =
      .next { s with
        queue := { s.queue with readOffset := s.queue.readOffset + 1 }
        seq   := { currentByte := b, bitOffset := nextSlot s.cfg 0 }
        resp  := .signal .ok false } := by
  rw [exec, execGetsignal, if_pos h0, startSlot, Queue.pull_byte hd hc hb]
  simp only [frameBit_start]

/-- R172, one operation: on states alike it does the same, up to outputs without a meaning, and leaves them alike. -/
theorem State.Alike.exec_next {i : Instr} {s t s' : State} (h : s.Alike t) (hread : s.queue.readOffset ≤ s.queue.length)
    (hexec : exec i s = .next s') :
    ∃ t', exec i t = .next t' ∧ s'.resp.agree t'.resp ∧ s'.Alike t' := by
  have hdrained := h.readOffset_eq_length_iff
  rcases exec_next_cases hexec with ⟨rfl, rfl⟩ | ⟨n, src, rfl, hwf, ⟨hd, rfl⟩ | ⟨hd, rfl⟩⟩ | ⟨rfl, hd, rfl⟩ |
    ⟨b, rfl, hd, hc, hb, rfl⟩ | ⟨rfl, h0, hd, rfl⟩ | ⟨b, rfl, h0, hd, hc, hb, rfl⟩ | ⟨rfl, h0, rfl⟩
  · -- `RESET`
    exact ⟨_, rfl, trivial, .cleared h.cfg⟩
  · -- `SETPAYLOAD` answers OK
    rw [h.cfg] at hwf
    exact ⟨_, exec_setpayload_ok hwf (hdrained.2 hd), rfl, h.stored (congrArg (storedMessage · n src) h.cfg) _⟩
  · -- `SETPAYLOAD` answers BUSY
    rw [h.cfg] at hwf
    exact ⟨_, exec_setpayload_busy hwf (mt hdrained.1 hd), rfl, h.of_sameBlock rfl rfl ⟨rfl, rfl⟩ ⟨rfl, rfl⟩⟩
  · -- `GETBYTE` answers FINISHED
    exact ⟨_, exec_getbyte_finished (hdrained.2 hd), Response.agree_byte_finished _ _,
      h.of_sameBlock rfl rfl ⟨rfl, rfl⟩ ⟨rfl, rfl⟩⟩
  · -- `GETBYTE` answers OK
    rw [← h.read_readOffset (Nat.lt_of_le_of_ne hread hd)] at hb
    rw [h.cfg, h.readOffset] at hc
    exact ⟨_, exec_getbyte_ok (mt hdrained.1 hd) hc hb, Response.agree_refl _,
      h.cfg, h.length, congrArg (· + 1) h.readOffset, h.bitOffset, h.bytes, h.current⟩
  · -- `GETSIGNAL` answers FINISHED
    exact ⟨_, exec_getsignal_finished (h.bitOffset ▸ h0) (hdrained.2 hd), Response.agree_signal_finished _ _,
      h.of_sameBlock rfl rfl ⟨rfl, rfl⟩ ⟨rfl, rfl⟩⟩
  · -- `GETSIGNAL` pulls a byte at slot 0: both latch it, whatever `currentByte` was
    rw [← h.read_readOffset (Nat.lt_of_le_of_ne hread hd)] at hb
    rw [h.cfg, h.readOffset] at hc
    exact ⟨_, exec_getsignal_latch (h.bitOffset ▸ h0) (mt hdrained.1 hd) hc hb, Response.agree_refl _,
      h.cfg, h.length, congrArg (· + 1) h.readOffset, congrArg (nextSlot · 0) h.cfg, h.bytes, fun _ => rfl⟩
  · -- `GETSIGNAL` at a later slot: `currentByte` is the same there
    refine ⟨_, exec_getsignal_later (h.bitOffset ▸ h0), ?_, h.cfg, h.length, h.readOffset, ?_, h.bytes,
      fun _ => h.current h0⟩
    · rw [h.current h0, h.bitOffset]
      exact Response.agree_refl _
    · rw [h.cfg, h.bitOffset]

/-! ### What reset leaves unspecified -/

/-- Settles O6, by induction over the operations: each leaves the states alike (`State.Alike.exec_next`) and R24's bounds in
force (`queueBoundsPreserved`). -/
theorem unspecifiedValuesUnobservable : Obligations.UnspecifiedValuesUnobservable := by
  intro ops
  induction ops with
  | nil =>
    intro s t rs s' h _ _ htrace
    obtain ⟨rfl, rfl⟩ := Prod.mk.inj (Option.some.inj htrace)
    exact ⟨[], t, rfl, trivial, h⟩
  | cons i ops ih =>
    intro s t rs s' h hread hlength htrace
    obtain ⟨u, rest, hu, hrest, rfl⟩ := trace_cons_some htrace
    obtain ⟨v, hv, hagree, huv⟩ := h.exec_next hread hu
    obtain ⟨hread', hlength'⟩ := queueBoundsPreserved i s u hread hlength hu
    obtain ⟨rs', t', htrace', hagrees, halike⟩ := ih u v rest s' huv hread' hlength' hrest
    exact ⟨v.resp :: rs', t', by rw [trace_cons_next hv, htrace']; rfl, ⟨hagree, hagrees⟩, halike⟩

/-- `RESET` completes in every state (R170). -/
theorem exec_reset (s : State) : exec .reset s = .next s.cleared := rfl

/-- Settles O5: the states after the `RESET` are alike (`State.Alike.cleared`), so they answer alike from then on
(`unspecifiedValuesUnobservable`). -/
theorem nothingPersistsAcrossReset : Obligations.NothingPersistsAcrossReset := by
  intro ops s t rs s' hcfg htrace
  obtain ⟨u, rest, hu, hrest, rfl⟩ := trace_cons_some htrace
  obtain rfl := Host.Outcome.next.inj ((exec_reset s).symm.trans hu)
  obtain ⟨rs', t', htrace', hagrees, halike⟩ := unspecifiedValuesUnobservable ops s.cleared t.cleared rest s'
    (.cleared hcfg) (Nat.le_refl 0) (Nat.zero_le _) hrest
  exact ⟨t.cleared.resp :: rs', t', by rw [trace_cons_next (exec_reset t), htrace']; rfl, ⟨trivial, hagrees⟩, halike⟩

/-! ### Power-on and `RESET` -/

/-- Settles O1: a queue at power-on is that of a reset, which lists the cells of the array. -/
theorem powerOnState : Obligations.PowerOnState := fun _ =>
  ⟨rfl, rfl, rfl, rfl, fun _ => Memory.read_unspecified_isSome⟩

/-- Settles O3: the fields of the cleared state, and the decoder's first row (`decode_of_rst`). -/
theorem resetRewindsAndWins : Obligations.ResetRewindsAndWins :=
  ⟨fun s => ⟨s.cleared, exec_reset s, rfl, rfl, rfl, rfl, fun _ => Memory.read_unspecified_isSome, rfl, rfl, rfl, rfl⟩,
    fun _ => decode_of_rst⟩

/-- The signals among answers that are all FINISHED ticks: one for each, and FINISHED. -/
theorem signals_of_finished {rs : List Response} (h : ∀ r ∈ rs, ∃ d, r = .signal .finished d) :
    signals rs = (signals rs).map (fun p => (.finished, p.2)) ∧ (signals rs).length = rs.length := by
  induction rs with
  | nil => exact ⟨rfl, rfl⟩
  | cons r rs ih =>
    obtain ⟨⟨d, rfl⟩, hrest⟩ := List.forall_mem_cons.1 h
    obtain ⟨hmap, hlength⟩ := ih hrest
    exact ⟨congrArg ((Status.finished, d) :: ·) hmap, congrArg (· + 1) hlength⟩

/-- Settles O4: a `RESET` leaves the queue drained and the cursor at slot 0, where a read (`exec_getbyte_finished`) and
every tick (`trace_ticks_drained`) answer FINISHED and a write is admitted. -/
theorem firstOperationsAfterReset : Obligations.FirstOperationsAfterReset := by
  intro s t h
  obtain rfl := Host.Outcome.next.inj ((exec_reset s).symm.trans h)
  have h0 : s.cleared.seq.bitOffset = 0 := rfl
  have hd : s.cleared.queue.readOffset = s.cleared.queue.length := rfl
  refine ⟨⟨_, _, exec_getbyte_finished hd, rfl, rfl, rfl⟩, fun k => ?_, fun n src hwf =>
    ⟨_, exec_setpayload_ok hwf hd, rfl⟩⟩
  obtain ⟨rs, u, htrace, hresp, hblock, -⟩ := trace_ticks_drained k h0 hd
  obtain ⟨hfinished, hlength⟩ := signals_of_finished hresp
  refine ⟨rs, u, htrace, hfinished, ?_, ?_, hblock⟩
  · rw [hlength, trace_length htrace, ticks, List.length_replicate]
  · rw [hblock.2, h0]

/-! ### Hazards and progress -/

/-- Settles O22: the read advances `readOffset` past its byte (`Queue.Holds.advance`), so the ticks transmit the rest
(`Queue.Holds.trace_frames`), and then find the queue drained at slot 0. -/
theorem directReadStealsByte : Obligations.DirectReadStealsByte := by
  intro s a msg hcfg h0 hholds hcap
  have hread := hholds.exec_getbyte hcap
  have hrest := hholds.advance
  rw [← List.append_nil msg] at hrest
  obtain ⟨rs, t, htrace, hsignals, ht0, hempty, -⟩ := Queue.Holds.trace_frames
    (s := { s with queue := { s.queue with readOffset := s.queue.readOffset + 1 }, resp := .byte .ok a })
    hrest hcfg h0 hcap
  have hd : t.queue.readOffset = t.queue.length := hempty.readOffset_eq_length_iff.2 rfl
  exact ⟨rs, t, by rw [trace_cons_next hread, htrace]; rfl, hsignals, ht0, fun k => trace_ticks_drained_status k ht0 hd⟩

/-- Settles O23: the ticks of `State.Inv.trace_ticks_drains`, after which a write is admitted (`exec_setpayload_ok`). -/
theorem ticksDrainTheQueue : Obligations.TicksDrainTheQueue := by
  intro s hs
  obtain ⟨k, rs, t, hk, htrace, hd⟩ := hs.trace_ticks_drains
  refine ⟨k, rs, t, hk, htrace, (Queue.drained_iff _).2 hd, fun n src hwf => ?_⟩
  rw [← trace_cfg htrace] at hwf
  exact ⟨_, exec_setpayload_ok hwf hd, rfl⟩

end Sys2Proof.Machine
